-- ==== Sys2Proof/Word.lean ====
section
/-! DEFINITION. The word, byte and register-index types (spec/00_scope.md R8, R11; spec/10_state.md R20). -/

namespace Sys2Proof

/-- A 32-bit unsigned value: register contents, segment words, instruction words, pc (R8, R11). -/
abbrev Word := BitVec 32

/-- A byte of the I/O port or of a program image (R8, R62). -/
abbrev Byte := BitVec 8

/-- A register index 0..7, the value of a 3-bit register field (R20, R22). `InvalidRegister` cannot be expressed. -/
abbrev Reg := Fin 8

end Sys2Proof
end

