-- ==== Sys2Proof/Syntax.lean ====
section
/-! DEFINITION. The instructions: one constructor per row of spec/opcode_table.json (spec/30_encoding.md R98). Operands are
the fields an opcode uses (R97), named A, B, C as in spec/00_scope.md R13. -/

namespace Sys2Proof

inductive Instr where
  /-- opcode 0, Conditional Move (R140) -/
  | cmov (a b c : Reg)
  /-- opcode 1, Segment Load (R170) -/
  | sload (a b c : Reg)
  /-- opcode 2, Segment Store (R171) -/
  | sstore (a b c : Reg)
  /-- opcode 3, Add (R141) -/
  | add (a b c : Reg)
  /-- opcode 4, Multiply (R142) -/
  | mul (a b c : Reg)
  /-- opcode 5, Divide (R143) -/
  | div (a b c : Reg)
  /-- opcode 6, Bitwise NAND (R144) -/
  | nand (a b c : Reg)
  /-- opcode 7, Halt (R200) -/
  | halt
  /-- opcode 8, Map Segment (R172) -/
  | map (b c : Reg)
  /-- opcode 9, Unmap Segment (R173) -/
  | unmap (c : Reg)
  /-- opcode 10, Output (R201) -/
  | out (c : Reg)
  /-- opcode 11, Input (R202); `in` is a word of Lean -/
  | inp (c : Reg)
  /-- opcode 12, Load Program (R174) -/
  | loadprog (b c : Reg)
  /-- opcode 13, Load Immediate (R145); the operand is `zext_32(w[24:0])` (R94, R100) -/
  | limm (a : Reg) (imm : Word)
  /-- opcode 14, not assigned (R99) -/
  | illegal14
  /-- opcode 15, not assigned (R99) -/
  | illegal15
deriving DecidableEq, Repr

/-- The opcode number of R98. -/
def Instr.opcode : Instr → Nat
  | .cmov _ _ _ => 0
  | .sload _ _ _ => 1
  | .sstore _ _ _ => 2
  | .add _ _ _ => 3
  | .mul _ _ _ => 4
  | .div _ _ _ => 5
  | .nand _ _ _ => 6
  | .halt => 7
  | .map _ _ => 8
  | .unmap _ => 9
  | .out _ => 10
  | .inp _ => 11
  | .loadprog _ _ => 12
  | .limm _ _ => 13
  | .illegal14 => 14
  | .illegal15 => 15

/-- The register an instruction may write: the "writes" column of spec/10_state.md R21. -/
def Instr.dest : Instr → Option Reg
  | .cmov a _ _ => some a
  | .sload a _ _ => some a
  | .sstore _ _ _ => none
  | .add a _ _ => some a
  | .mul a _ _ => some a
  | .div a _ _ => some a
  | .nand a _ _ => some a
  | .halt => none
  | .map b _ => some b
  | .unmap _ => none
  | .out _ => none
  | .inp c => some c
  | .loadprog _ _ => none
  | .limm a _ => some a
  | .illegal14 => none
  | .illegal15 => none

end Sys2Proof
end

