-- ==== Sys2Proof/WellFormed.lean ====
section
/-! DEFINITION. Which terms of `Instr` an instruction word can encode. The register operands are in range by their type
(spec/10_state.md R22); the one operand whose type is wider than its field is LIMM's (spec/30_encoding.md R94). -/

namespace Sys2Proof

/-- The immediate is in 0..2^25-1 (R94). -/
def Instr.wf : Instr → Bool
  | .limm _ imm => decide (imm.toNat < 2 ^ 25)
  | .cmov _ _ _ => true
  | .sload _ _ _ => true
  | .sstore _ _ _ => true
  | .add _ _ _ => true
  | .mul _ _ _ => true
  | .div _ _ _ => true
  | .nand _ _ _ => true
  | .halt => true
  | .map _ _ => true
  | .unmap _ => true
  | .out _ => true
  | .inp _ => true
  | .loadprog _ _ => true
  | .illegal14 => true
  | .illegal15 => true

end Sys2Proof
end

