-- ==== Sys2Proof/Decode.lean ====
section
/-! DEFINITION. Decoding and encoding of instruction words (spec/30_encoding.md R90 to R101). -/

namespace Sys2Proof

/-- The 3-bit register field of `w` whose lowest bit is `lo` (R92, R93). -/
def regField (w : Word) (lo : Nat) : Reg := (w.extractLsb' lo 3).toFin

/-- `zext_32(w[24:0])` (R94). -/
def immField (w : Word) : Word := (w.extractLsb' 0 25).setWidth 32

/-- The opcode field `w[31:28]` (R91). -/
def opField (w : Word) : BitVec 4 := w.extractLsb' 28 4

/-- `Decode` of R100: total on words, without side effect. Bits 27:9 of a Standard word and the register fields an opcode
does not use are ignored (R96, R97). The last arm is opcode 15: the field has four bits. -/
def decode (w : Word) : Instr :=
  match (opField w).toNat with
  | 0 => .cmov (regField w 6) (regField w 3) (regField w 0)
  | 1 => .sload (regField w 6) (regField w 3) (regField w 0)
  | 2 => .sstore (regField w 6) (regField w 3) (regField w 0)
  | 3 => .add (regField w 6) (regField w 3) (regField w 0)
  | 4 => .mul (regField w 6) (regField w 3) (regField w 0)
  | 5 => .div (regField w 6) (regField w 3) (regField w 0)
  | 6 => .nand (regField w 6) (regField w 3) (regField w 0)
  | 7 => .halt
  | 8 => .map (regField w 3) (regField w 0)
  | 9 => .unmap (regField w 0)
  | 10 => .out (regField w 0)
  | 11 => .inp (regField w 0)
  | 12 => .loadprog (regField w 3) (regField w 0)
  | 13 => .limm (regField w 25) (immField w)
  | 14 => .illegal14
  | _ => .illegal15

/-- `EncodeStd` of R101. -/
def encodeStd (op : Nat) (a b c : Reg) : Word :=
  (BitVec.ofNat 32 op <<< 28) ||| (BitVec.ofNat 32 a.val <<< 6) ||| (BitVec.ofNat 32 b.val <<< 3) ||| BitVec.ofNat 32 c.val

/-- `EncodeLimm` of R101. -/
def encodeLimm (a : Reg) (imm : Word) : Word :=
  (BitVec.ofNat 32 13 <<< 28) ||| (BitVec.ofNat 32 a.val <<< 25) ||| imm

/-- The word of a well-formed instruction; unused bits and ignored fields are 0 (R101, R102). The illegal rows have no
assembler form; their word here is the `match` value of R98. -/
def encode : Instr → Word
  | .cmov a b c => encodeStd 0 a b c
  | .sload a b c => encodeStd 1 a b c
  | .sstore a b c => encodeStd 2 a b c
  | .add a b c => encodeStd 3 a b c
  | .mul a b c => encodeStd 4 a b c
  | .div a b c => encodeStd 5 a b c
  | .nand a b c => encodeStd 6 a b c
  | .halt => encodeStd 7 0 0 0
  | .map b c => encodeStd 8 0 b c
  | .unmap c => encodeStd 9 0 0 c
  | .out c => encodeStd 10 0 0 c
  | .inp c => encodeStd 11 0 0 c
  | .loadprog b c => encodeStd 12 0 b c
  | .limm a imm => encodeLimm a imm
  | .illegal14 => encodeStd 14 0 0 0
  | .illegal15 => encodeStd 15 0 0 0

/-- Why bytes are no instruction: there are fewer than the four of a word (R90). -/
inductive DecodeError where
  | truncated
deriving DecidableEq, Repr

/-- Four bytes of a program image as a word, big-endian: `b0` is bits 31:24 (spec/70_reset_and_hazards.md R262). -/
def wordOfBytes (b0 b1 b2 b3 : Byte) : Word := b0 ++ b1 ++ b2 ++ b3

/-- Decoding from the bytes of a program image (R262): the first instruction and the remaining bytes. -/
def decodeBytes : List Byte → Except DecodeError (Instr × List Byte)
  | b0 :: b1 :: b2 :: b3 :: rest => .ok (decode (wordOfBytes b0 b1 b2 b3), rest)
  | _ => .error .truncated

/-- The table word `w`, read on its low `nbits` bits, as the machine's 32-bit word (R90). -/
def tableWord (nbits w : Nat) : Word := BitVec.ofNat 32 (w % 2 ^ nbits)

/-- The instruction the decoder reads from a table word. Every word decodes (R100). -/
def decodeTableWord (nbits w : Nat) : Option Instr := some (decode (tableWord nbits w))

end Sys2Proof
end

