-- ==== Sys2Proof/Config.lean ====
section
/-! DEFINITION. What an implementation fixes (the two parameters of spec/00_scope.md R9), what travels on the host's
interfaces (spec/43_control_io.md R204), and the FREE VALUES: constants without a body, about which nothing can be proved. -/

namespace Sys2Proof

/-- The parameters the model takes as arguments (R9, D2, D3). They are data of `State`, so that a statement about every
state is a statement about every configuration. -/
structure Params where
  /-- `NSEG`: the number of segment slots. -/
  nseg : Nat
  /-- `MAX_SEG_WORDS`: the capacity of a slot in words. -/
  maxSegWords : Nat
deriving DecidableEq, Repr

/-- The legal values of R9. -/
abbrev Params.legal (p : Params) : Prop :=
  1 ≤ p.nseg ∧ p.nseg ≤ 2 ^ 32 ∧ 1 ≤ p.maxSegWords ∧ p.maxSegWords ≤ 2 ^ 32 - 1

/-- The reference configuration of R9: NSEG = 8, MAX_SEG_WORDS = 2^16. -/
def Params.reference : Params := { nseg := 8, maxSegWords := 2 ^ 16 }

/-- The host's answer to one `in_req` (R204, R206). -/
inductive Answer where
  | byte (b : Byte)
  | eof
deriving DecidableEq, Repr

/-- The end-of-image marker of the `load` interface (R204, R263). -/
inductive EndMarker where
  | ok
  | invalid
deriving DecidableEq, Repr

/-- One `load` transaction: a sequence of words, then an end-of-image marker (R204). -/
structure Image where
  words : List Word
  marker : EndMarker
deriving DecidableEq, Repr

namespace Config

/-- FREE VALUE. What the host does at the n-th poll of `in_resp`: an answer, or none yet (R206, R208, D28; O1, O2).
Log entry 3. -/
opaque hostReply : Nat → Option Answer

/-- FREE VALUE. The image the host has completed on `load` at the n-th time it is asked, or none yet (R207, R261).
Log entry 5. -/
opaque hostImage : Nat → Option Image

/-- FREE VALUE. Word k of segment 0 after the n-th load ended in `Faulted(InvalidProgram)`: "segment 0's contents are
unspecified" (R263, O4). Log entry 7. -/
opaque unspecifiedWord : Nat → Nat → Word

/-- FREE VALUE. The length of segment 0 (cut to MAX_SEG_WORDS) after the n-th load brought more words than a slot holds
(R263). Log entry 7. -/
opaque overlongLen : Nat → Nat

end Config
end Sys2Proof
end

