-- ==== Sys2Proof/Machine/State.lean ====
section
/-! DEFINITION. The architectural state (spec/10_state.md): "the tuple (Register File, PC, engine state, Segment Table,
I/O state)", the parameters of spec/00_scope.md R9, the load in progress of spec/70_reset_and_hazards.md R261, and the
model's own record of the host's free choices. Plain data throughout. -/

namespace Sys2Proof.Machine

/-- The fault names of spec/60_exceptions.md R230. `InvalidRegister` is unreachable and absent (spec/10_state.md R22). -/
inductive FaultCause where
  | illegalOpcode
  | segmentFault
  | invalidSegment
  | divisionByZero
  | outOfRange
  | resourceExhausted
  | invalidProgram
deriving DecidableEq, Repr

/-- The states of the Execution Engine (R26). -/
inductive Engine where
  | running
  | halted
  | faulted (cause : FaultCause)
deriving DecidableEq, Repr

/-- A mapped slot: its length in words, and its words (R30). `cells` lists the NON-ZERO words, by offset in strictly
rising order, none at or beyond `len`; an offset below `len` that is not listed holds 0, the fill of `SegAlloc` (R54).
The unit is the word, the smallest addressable unit (R50, R62); log entry 1. -/
structure Segment where
  len : Nat
  cells : List (Nat × Word)
deriving DecidableEq, Repr

/-- The Segment Table (R30, R32): the mapped slots, by identifier in strictly rising order. `mapped[i]` = 1 exactly when
`i` is listed. An unmapped slot has no length and no words here, as they are "meaningful only when mapped[i] = 1";
log entry 8. -/
structure Memory where
  slots : List (Nat × Segment)
deriving DecidableEq, Repr

structure State where
  /-- NSEG and MAX_SEG_WORDS (R9); no step writes them. Log entry 2. -/
  params : Params
  /-- r0..r7 (R20). -/
  regs : Vector Word 8
  /-- The program counter, a word offset into segment 0 (R23). -/
  pc : Word
  /-- The engine state (R26). -/
  engine : Engine
  /-- The Segment Table (R30). -/
  memory : Memory
  /-- The output trace, in emission order (R33). -/
  output : List Byte
  /-- An input request is pending: an IN waits for the host (R33, R206). -/
  inReq : Bool
  /-- The block waits for an image on `load` and takes no step yet (R261, R266). -/
  awaitingImage : Bool
  /-- MODEL'S OWN: the host's next replies on `in_resp`, so far as this state fixes them, oldest first. Log entry 3. -/
  hostReplies : List (Option Answer)
  /-- MODEL'S OWN: how many free replies were drawn. Log entry 3. -/
  polls : Nat
  /-- MODEL'S OWN: how many times the free image was asked for. Log entry 5. -/
  loads : Nat
deriving DecidableEq, Repr

/-- Why `step` makes no state. Both are raised by `step` alone, in the terminal states, where "the engine takes no step;
nothing but reset leaves them" (spec/40_execution_loop.md R128). A fault of the SPEC is not one of these: it is the
engine state `faulted` of a next state. Log entry 9. -/
inductive Fault where
  /-- The engine is Halted. Raised by `step`; safe: the hardware takes no step either. -/
  | engineHalted
  /-- The engine is Faulted. Raised by `step`; safe: the hardware takes no step either. -/
  | engineFaulted (cause : FaultCause)
deriving DecidableEq, Repr

/-- Why an instruction has no meaning. -/
inductive Refusal where
  /-- An arm of `exec` without a meaning. Raised by `exec` alone; safe. No arm raises it. -/
  | notModelled (mnemonic : String)
deriving DecidableEq, Repr

/-- What a meaning answers. -/
abbrev Result := Host.Outcome State Fault Refusal

/-- The state right after reset for parameters `p`, before the image is loaded (R260, R266). Segment 0 is mapped and
empty until the load replaces it: log entry 6. -/
def State.resetWith (p : Params) : State :=
  { params := p
    regs := Vector.replicate 8 0
    pc := 0
    engine := .running
    memory := { slots := [(0, { len := 0, cells := [] })] }
    output := []
    inReq := false
    awaitingImage := true
    hostReplies := []
    polls := 0
    loads := 0 }

/-- The state right after reset at the reference configuration: log entry 2. -/
def State.reset : State := State.resetWith Params.reference

end Sys2Proof.Machine
end

