-- ==== Sys2Proof/Machine/Flags.lean ====
section
/-! DEFINITION. There are no flags (spec/10_state.md R28). This file holds the one condition an instruction tests and the
STATUS word the host reads, the machine's only status register (R27). -/

namespace Sys2Proof.Machine

/-- CMOV's test `x[C] != 0`, the only conditional behaviour (R28). -/
def conditionHolds (v : Word) : Bool := decide (v ≠ 0)

/-- The fault codes of spec/60_exceptions.md R230. -/
def FaultCause.code : FaultCause → BitVec 4
  | .illegalOpcode => 1
  | .segmentFault => 2
  | .invalidSegment => 3
  | .divisionByZero => 4
  | .outOfRange => 5
  | .resourceExhausted => 6
  | .invalidProgram => 7

/-- STATUS bits 1:0 (R27). -/
def Engine.stateField : Engine → BitVec 2
  | .running => 0
  | .halted => 1
  | .faulted _ => 2

/-- STATUS bits 11:8 (R27). -/
def Engine.faultField : Engine → BitVec 4
  | .faulted f => f.code
  | .running => 0
  | .halted => 0

/-- STATUS bit 2: the engine is Running and an IN waits (R27). -/
def State.waiting (s : State) : Bool := decide (s.engine = .running) && s.inReq

/-- The STATUS word (R27): fault in 11:8, waiting in 2, state in 1:0, the reserved bits 0. -/
def State.status (s : State) : Word :=
  (0 : BitVec 20) ++ s.engine.faultField ++ (0 : BitVec 5) ++ BitVec.ofBool s.waiting ++ s.engine.stateField

end Sys2Proof.Machine
end

