-- ==== Sys2Proof/Machine/Operands.lean ====
section
/-! DEFINITION. The operand forms: a register read or written whole (spec/00_scope.md R12, R13; spec/10_state.md R20).
The only other operand, LIMM's immediate, is assembled by the decoder (spec/30_encoding.md R94). -/

namespace Sys2Proof.Machine

/-- `x[i]` (R12). -/
def State.x (s : State) (r : Reg) : Word := s.regs[r]

/-- `x[i] <- v` (R12). -/
def State.setX (s : State) (r : Reg) (v : Word) : State := { s with regs := s.regs.set r v }

end Sys2Proof.Machine
end

