-- ==== Sys2Proof/Machine/Table.lean ====
section
/-! DEFINITION. Sparse tables: lists of (key, value) pairs in rising order of key. The model's memory is made of them.
Every function is structurally recursive, and every law of reading after writing holds of any list. -/

namespace Sys2Proof.Machine

/-- The value listed under `k`. -/
def Table.find {α : Type} : List (Nat × α) → Nat → Option α
  | [], _ => none
  | (j, v) :: t, k => if j = k then some v else Table.find t k

/-- List `v` under `k`, in place of what was listed there. -/
def Table.put {α : Type} : List (Nat × α) → Nat → α → List (Nat × α)
  | [], k, v => [(k, v)]
  | (j, u) :: t, k, v =>
    if k < j then (k, v) :: (j, u) :: t
    else if j = k then (k, v) :: t
    else (j, u) :: Table.put t k v

/-- List nothing under `k`. -/
def Table.erase {α : Type} : List (Nat × α) → Nat → List (Nat × α)
  | [], _ => []
  | (j, u) :: t, k => if j = k then Table.erase t k else (j, u) :: Table.erase t k

/-- The keys rise strictly: the canonical form. -/
def Table.sorted {α : Type} : List (Nat × α) → Bool
  | [] => true
  | (j, _) :: t => t.all (fun e => decide (j < e.1)) && Table.sorted t

end Sys2Proof.Machine
end

