-- ==== Sys2Proof/Machine/Ops.lean ====
section
/-! DEFINITION. The shared operations: the segment primitives of spec/20_memory.md, the I/O transactions of
spec/43_control_io.md, taking a fault (spec/60_exceptions.md R232) and fetching (spec/40_execution_loop.md). -/

namespace Sys2Proof.Machine

/-! ### The words of one slot -/

/-- What an offset that is not listed reads as: 0, the fill of `SegAlloc` (R54). -/
abbrev unlistedWord : Word := 0

/-- The word at an offset. -/
def Segment.read (g : Segment) (off : Nat) : Word := (Table.find g.cells off).getD unlistedWord

/-- Store a word, keeping the canonical form: a word that an unlisted offset reads as is not listed. -/
def Segment.write (g : Segment) (off : Nat) (v : Word) : Segment :=
  { g with cells := if v = unlistedWord then Table.erase g.cells off else Table.put g.cells off v }

/-- `n` words of 0: nothing is listed (R54). -/
def Segment.fresh (n : Nat) : Segment := { len := n, cells := [] }

/-- The non-zero words of a sequence, with their offsets counted from `k`. -/
def cellsFrom : Nat → List Word → List (Nat × Word)
  | _, [] => []
  | k, w :: ws => if w = unlistedWord then cellsFrom (k + 1) ws else (k, w) :: cellsFrom (k + 1) ws

/-- The slot that holds exactly the words `ws` (R260: `len[0]` and `words[0][k]` of an image). -/
def Segment.ofWords (ws : List Word) : Segment := { len := ws.length, cells := cellsFrom 0 ws }

/-- The canonical form of a slot's words, and its capacity (R31). -/
def Segment.wf (cap : Nat) (g : Segment) : Bool :=
  decide (g.len ≤ cap) && Table.sorted g.cells && g.cells.all (fun e => decide (e.1 < g.len) && decide (e.2 ≠ unlistedWord))

/-! ### The Segment Table -/

/-- The slot's segment, where it is mapped. -/
def Memory.seg (m : Memory) (id : Nat) : Option Segment := Table.find m.slots id

/-- `mapped[id] = 1` (R30). -/
def Memory.mapped (m : Memory) (id : Nat) : Bool := (m.seg id).isSome

/-- `len[id]`, where the slot is mapped (R30). -/
def Memory.lenOf (m : Memory) (id : Nat) : Option Nat := (m.seg id).map Segment.len

/-- `words[id][off]`, where it exists: THE MODEL'S READ of one memory unit, for statements about memory (R30). -/
def Memory.word (m : Memory) (id off : Nat) : Option Word :=
  match m.seg id with
  | some g => if off < g.len then some (g.read off) else none
  | none => none

/-- Make `g` the segment of slot `id` and mark it mapped. -/
def Memory.install (m : Memory) (id : Nat) (g : Segment) : Memory := { slots := Table.put m.slots id g }

/-- Mark slot `id` unmapped (R55). -/
def Memory.unmap (m : Memory) (id : Nat) : Memory := { slots := Table.erase m.slots id }

/-- `words[id][off] <- v` (R53). -/
def Memory.store (m : Memory) (id off : Nat) (v : Word) : Memory :=
  match m.seg id with
  | some g => m.install id (g.write off v)
  | none => m

/-- The words and the length of slot `id` become slot 0's (R56). -/
def Memory.copyToZero (m : Memory) (id : Nat) : Memory :=
  match m.seg id with
  | some g => m.install 0 g
  | none => m

/-- The lowest unmapped identifier among the `n` identifiers from `id` on: `min F` of R54. -/
def Memory.lowestFree (m : Memory) (id : Nat) : Nat → Option Nat
  | 0 => none
  | n + 1 => if m.mapped id then m.lowestFree (id + 1) n else some id

/-- The canonical form of the Segment Table: identifiers strictly rising and below NSEG, every slot canonical and within
MAX_SEG_WORDS (R31). -/
def Memory.wf (p : Params) (m : Memory) : Bool :=
  Table.sorted m.slots && m.slots.all (fun e => decide (e.1 < p.nseg) && e.2.wf p.maxSegWords)

/-! ### Updates of one component -/

def State.setPc (s : State) (t : Word) : State := { s with pc := t }

def State.setMemory (s : State) (m : Memory) : State := { s with memory := m }

/-- The engine stops in `Halted` (R200). -/
def State.haltEngine (s : State) : State := { s with engine := .halted }

/-- TAKING A FAULT, `raise F` (R232): the step ends in `Faulted(F)`. Only the name is recorded (R231); nothing else
changes. There is no return: only reset leaves `Faulted` (R236), see `State.hostReset`. -/
def State.raise (s : State) (f : FaultCause) : State := { s with engine := .faulted f }

/-- The end of an instruction that may have raised a fault: the state it made, or the state before it with the fault
(R126, R232). Always a next state. -/
def State.finish (s : State) (r : Except FaultCause State) : Result :=
  .next (match r with
    | .ok t => t
    | .error f => s.raise f)

/-! ### The segment primitives of R12 -/

/-- R51: `id` names a mapped slot. -/
def State.validId (s : State) (id : Word) : Bool :=
  decide (id.toNat < s.params.nseg) && s.memory.mapped id.toNat

/-- R51: (id, off) is in bounds. -/
def State.inBounds (s : State) (id off : Word) : Bool :=
  s.validId id && decide (off.toNat < (s.memory.lenOf id.toNat).getD 0)

/-- `Index` of R58: hit, and the word of the reference placement. Only the hit is used by the machine (R10, O8). -/
def State.index (s : State) (id off : Word) : Bool × Nat :=
  (s.inBounds id off, id.toNat * s.params.maxSegWords + off.toNat)

/-- `SegRead` of R52. -/
def State.segRead (s : State) (id off : Word) : Except FaultCause Word :=
  if (s.index id off).1 then .ok ((s.memory.word id.toNat off.toNat).getD unlistedWord) else .error .segmentFault

/-- `SegWrite` of R53. -/
def State.segWrite (s : State) (id off v : Word) : Except FaultCause State :=
  if (s.index id off).1 then .ok (s.setMemory (s.memory.store id.toNat off.toNat v)) else .error .segmentFault

/-- `SegAlloc` of R54: the identifier and the state with the fresh slot. -/
def State.segAlloc (s : State) (n : Word) : Except FaultCause (Word × State) :=
  if s.params.maxSegWords < n.toNat then .error .resourceExhausted
  else
    match s.memory.lowestFree 1 (s.params.nseg - 1) with
    | none => .error .resourceExhausted
    | some id => .ok (BitVec.ofNat 32 id, s.setMemory (s.memory.install id (Segment.fresh n.toNat)))

/-- `SegFree` of R55. -/
def State.segFree (s : State) (id : Word) : Except FaultCause State :=
  if decide (id ≠ 0) && s.validId id then .ok (s.setMemory (s.memory.unmap id.toNat)) else .error .invalidSegment

/-- `SegReplaceZero` of R56. The segment is a value, so slot 0 gets a copy (R60). -/
def State.segReplaceZero (s : State) (id : Word) : Except FaultCause State :=
  if id = 0 then .ok s
  else if s.validId id then .ok (s.setMemory (s.memory.copyToZero id.toNat))
  else .error .segmentFault

/-! ### The I/O port -/

/-- OUT's transaction (R201, R205): the precondition, then the byte at the end of the output trace. -/
def State.outByte (s : State) (v : Word) : Except FaultCause State :=
  if 255 < v.toNat then .error .outOfRange
  else .ok { s with output := s.output ++ [v.extractLsb' 0 8] }

/-- What the host does at this poll of `in_resp`: the reply the state already fixes, else a free one (R206, R208).
Log entry 3. -/
def State.hostAnswer (s : State) : Option Answer := s.hostReplies.head?.getD (Config.hostReply s.polls)

/-- That reply is used up; the next poll is a fresh one (R208). -/
def State.takeReply (s : State) : State :=
  { s with
    hostReplies := s.hostReplies.tail
    polls := if s.hostReplies.isEmpty then s.polls + 1 else s.polls }

/-- The value IN writes (R202): the byte zero-extended (D11), or the end-of-stream sentinel. -/
def answerWord : Answer → Word
  | .byte b => b.setWidth 32
  | .eof => 0xFFFFFFFF

/-- `in_resp` has arrived: the request is over (R206). -/
def State.answered (s : State) : State := { s with inReq := false }

/-- The host has not answered: the request stands, and the IN step has not completed, so nothing else has changed: the
fetch advance is taken back (R125, R127, R206; vector N5i). Log entry 4. -/
def State.await (s : State) : State := { s with inReq := true, pc := s.pc - 1 }

/-! ### Fetch -/

/-- The word at (segment 0, pc), or the fetch fault (R121). -/
def State.fetch (s : State) : Except FaultCause Word := s.segRead 0 s.pc

/-- `pc <- pc + 1` (R122). -/
def State.advance (s : State) : State := { s with pc := s.pc + 1 }

end Sys2Proof.Machine
end

