-- ==== Sys2Proof/Machine/Boot.lean ====
section
/-! DEFINITION. Reset and the load of the program image (spec/70_reset_and_hazards.md R260 to R266). -/

namespace Sys2Proof.Machine

/-- The loader's assembly of an image file, words big-endian (R262); a length that is not a multiple of four bytes ends
in the `invalid` marker (R263). DESIGN CHOICE: before that marker come the complete words, and the 1 to 3 trailing bytes
are dropped; the spec does not say which words do. Log entry 15. -/
def imageWords : List Byte → List Word × EndMarker
  | b0 :: b1 :: b2 :: b3 :: rest => (wordOfBytes b0 b1 b2 b3 :: (imageWords rest).1, (imageWords rest).2)
  | [] => ([], .ok)
  | [_] => ([], .invalid)
  | [_, _] => ([], .invalid)
  | [_, _, _] => ([], .invalid)

/-- The `load` transaction an image file gives rise to (R262, R263). Its words before an `invalid` marker: log entry 15. -/
def imageOfBytes (bytes : List Byte) : Image :=
  { words := (imageWords bytes).1, marker := (imageWords bytes).2 }

/-- The image is accepted: its marker is `ok` and segment 0 can hold it (R263, D14). -/
def imageAccepted (p : Params) (img : Image) : Bool :=
  decide (img.marker = .ok) && decide (img.words.length ≤ p.maxSegWords)

/-- Reset, asserted by the host in any engine state (R266): the state after reset, with a pending request withdrawn. The
host's own future replies are not the block's to reset. Log entry 11. -/
def State.hostReset (s : State) : State :=
  { State.resetWith s.params with hostReplies := s.hostReplies, polls := s.polls, loads := s.loads }

/-- The length of segment 0 after a refused image: the image's own where a slot holds it, else a free value within
MAX_SEG_WORDS (R263). Log entry 7; for an image made of a file's bytes, log entry 15 too. -/
def refusedLen (p : Params) (k : Nat) (img : Image) : Nat :=
  if img.words.length ≤ p.maxSegWords then img.words.length else min (Config.overlongLen k) p.maxSegWords

/-- Segment 0 after a refused image: its words are free values (R263, O4). Log entry 7. -/
def refusedSegment (p : Params) (k : Nat) (img : Image) : Segment :=
  Segment.ofWords ((List.range (refusedLen p k img)).map (Config.unspecifiedWord k))

/-- The end of the load (R261, R263): the state of R260 with the image in segment 0, or `Faulted(InvalidProgram)`. -/
def State.load (s : State) (img : Image) : State :=
  if imageAccepted s.params img then
    { s.hostReset with awaitingImage := false, memory := { slots := [(0, Segment.ofWords img.words)] } }
  else
    { s.hostReset with
      awaitingImage := false
      memory := { slots := [(0, refusedSegment s.params s.loads img)] }
      engine := .faulted .invalidProgram }

/-- The block asks for the image: the host has completed it, or the block waits on (R261, R266). Log entry 5. -/
def State.pollImage (s : State) : State :=
  match Config.hostImage s.loads with
  | some img => { s with loads := s.loads + 1 }.load img
  | none => { s with loads := s.loads + 1 }

end Sys2Proof.Machine
end

