-- ==== Sys2Proof/Machine/ControlIO.lean ====
section
/-! DEFINITION. Halt and the I/O instructions (spec/43_control_io.md), and the two unassigned opcodes
(spec/30_encoding.md R99). -/

namespace Sys2Proof.Machine

/-- HALT (R200). -/
def execHalt (s : State) : Result := .next s.haltEngine

/-- OUT (R201). -/
def execOut (c : Reg) (s : State) : Result := s.finish (s.outByte (s.x c))

/-- IN (R202, R206): one poll of the host. With an answer the instruction completes; without one it waits, and the next
step is this instruction again (R127). -/
def execInp (c : Reg) (s : State) : Result :=
  .next (match s.hostAnswer with
    | some a => s.takeReply.answered.setX c (answerWord a)
    | none => s.takeReply.await)

/-- Opcode 14 (R99, R123). -/
def execIllegal14 (s : State) : Result := .next (s.raise .illegalOpcode)

/-- Opcode 15 (R99, R123). -/
def execIllegal15 (s : State) : Result := .next (s.raise .illegalOpcode)

end Sys2Proof.Machine
end

