-- ==== Sys2Proof/Machine/Register.lean ====
section
/-! DEFINITION. The register and arithmetic instructions (spec/41_register_ops.md). Values are unsigned and every operand
is read before the write (spec/00_scope.md R12). -/

namespace Sys2Proof.Machine

/-- CMOV (R140). -/
def execCmov (a b c : Reg) (s : State) : Result :=
  .next (if conditionHolds (s.x c) then s.setX a (s.x b) else s)

/-- ADD (R141): modulo 2^32, no flag, no fault. -/
def execAdd (a b c : Reg) (s : State) : Result := .next (s.setX a (s.x b + s.x c))

/-- MUL (R142): the low 32 bits of the product. -/
def execMul (a b c : Reg) (s : State) : Result := .next (s.setX a (s.x b * s.x c))

/-- The quotient of R143: unsigned, floor, or the fault on a zero divisor. -/
def quotient (b c : Word) : Except FaultCause Word := if c = 0 then .error .divisionByZero else .ok (b.udiv c)

/-- DIV (R143). -/
def execDiv (a b c : Reg) (s : State) : Result := s.finish ((quotient (s.x b) (s.x c)).map (s.setX a))

/-- NAND (R144). -/
def execNand (a b c : Reg) (s : State) : Result := .next (s.setX a (~~~(s.x b &&& s.x c)))

/-- LIMM (R145). -/
def execLimm (a : Reg) (imm : Word) (s : State) : Result := .next (s.setX a imm)

end Sys2Proof.Machine
end

