-- ==== Sys2Proof/Machine/Segments.lean ====
section
/-! DEFINITION. The segment and control-transfer instructions (spec/42_segment_ops.md). A faulting one changes nothing
but the fetch advance, which `step` has made (spec/60_exceptions.md R232). -/

namespace Sys2Proof.Machine

/-- SLOAD (R170). -/
def execSload (a b c : Reg) (s : State) : Result := s.finish ((s.segRead (s.x b) (s.x c)).map (s.setX a))

/-- SSTORE (R171). -/
def execSstore (a b c : Reg) (s : State) : Result := s.finish (s.segWrite (s.x a) (s.x b) (s.x c))

/-- MAP (R172): the identifier is written in the state that holds the fresh slot. -/
def execMap (b c : Reg) (s : State) : Result := s.finish ((s.segAlloc (s.x c)).map (fun r => r.2.setX b r.1))

/-- UNMAP (R173). -/
def execUnmap (c : Reg) (s : State) : Result := s.finish (s.segFree (s.x c))

/-- LOADPROG (R174): both operands are read before any change. -/
def execLoadprog (b c : Reg) (s : State) : Result :=
  s.finish ((s.segReplaceZero (s.x b)).map (fun t => t.setPc (s.x c)))

end Sys2Proof.Machine
end

