-- ==== Sys2Proof/Machine/Step.lean ====
section
/-! DEFINITION. One step of the machine (spec/40_execution_loop.md R120). -/

namespace Sys2Proof.Machine

/-- `Step` of R120. In a terminal state there is no step (R128); while the image is not complete the block waits for it
(R261); else fetch, advance, decode, dispatch. A fetch fault leaves the pc (R121). -/
def step (s : State) : Host.Outcome State Fault Refusal :=
  match s.engine with
  | .halted => .fault .engineHalted
  | .faulted f => .fault (.engineFaulted f)
  | .running =>
    match s.awaitingImage with
    | true => .next s.pollImage
    | false =>
      match s.fetch with
      | .error f => .next (s.raise f)
      | .ok w => exec (decode w) s.advance

/-- `s` with the table word stored at (segment 0, pc), where the next step fetches; segment 0 is lengthened to reach it.
It stands for the host's load: the load is over and the engine runs. Log entry 5. -/
def State.withFetchWord (s : State) (nbits w : Nat) : State :=
  let g : Segment := (s.memory.seg 0).getD (Segment.fresh 0)
  let g' : Segment := { g with len := max g.len (s.pc.toNat + 1) }
  { s with
    memory := s.memory.install 0 (g'.write s.pc.toNat (tableWord nbits w))
    awaitingImage := false
    engine := .running }

end Sys2Proof.Machine
end

