-- ==== Sys2Proof/Safety.lean ====
section
/-! DEFINITION. The terms statements are written in: the invariant of reachable states, the states a host can bring the
machine to, and frames. -/

namespace Sys2Proof.Machine

/-- The instruction is IN, the only one that may wait (spec/40_execution_loop.md R127). -/
def isInp : Instr → Bool
  | .inp _ => true
  | .cmov _ _ _ => false
  | .sload _ _ _ => false
  | .sstore _ _ _ => false
  | .add _ _ _ => false
  | .mul _ _ _ => false
  | .div _ _ _ => false
  | .nand _ _ _ => false
  | .halt => false
  | .map _ _ => false
  | .unmap _ => false
  | .out _ => false
  | .loadprog _ _ => false
  | .limm _ _ => false
  | .illegal14 => false
  | .illegal15 => false

/-- The next fetch reads an IN. -/
def State.atInp (s : State) : Bool :=
  match s.fetch with
  | .ok w => isInp (decode w)
  | .error _ => false

/-- A request is pending only while the engine runs, the image is loaded and the pc stands at the waiting IN (R127). -/
def State.waitsAtInp (s : State) : Bool :=
  !s.inReq || (decide (s.engine = .running) && !s.awaitingImage && s.atInp)

/-- What holds in every reachable state: legal parameters (R9), a canonical Segment Table within its capacity whose slot
0 is mapped (R31), and a pending request only at an IN (R127). -/
def State.inv (s : State) : Bool :=
  decide s.params.legal && s.memory.wf s.params && s.memory.mapped 0 && s.waitsAtInp

/-- The states the block can be in, at parameters `p`: after reset, after a step, and after the host asserts reset in any
of them (spec/70_reset_and_hazards.md R266). -/
inductive Reachable (p : Params) : State → Prop
  | start : Reachable p (State.resetWith p)
  | step {s t : State} : Reachable p s → Sys2Proof.Machine.step s = .next t → Reachable p t
  | hostReset {s : State} : Reachable p s → Reachable p s.hostReset

/-- The engine is in a terminal state (R26). -/
def State.stopped (s : State) : Prop := s.engine ≠ .running

/-- Every register but those in `written` keeps its value. -/
def RegsKept (written : Option Reg) (s t : State) : Prop := ∀ r : Reg, some r ≠ written → t.x r = s.x r

/-- Every slot keeps its mapped flag and length, and every word of every slot its value. -/
def MemoryKept (s t : State) : Prop :=
  (∀ id, t.memory.lenOf id = s.memory.lenOf id) ∧ ∀ id off, t.memory.word id off = s.memory.word id off

/-- The parameters, the load in progress and the record of the host's choices keep their values. -/
def HostSideKept (s t : State) : Prop :=
  t.params = s.params ∧ t.awaitingImage = s.awaitingImage ∧ t.hostReplies = s.hostReplies ∧ t.polls = s.polls ∧
    t.loads = s.loads

/-- The output trace and the pending request keep their values. -/
def PortKept (s t : State) : Prop := t.output = s.output ∧ t.inReq = s.inReq

/-- Nothing changes but the registers in `written`; the pc too stays where the fetch advance left it. -/
def OnlyRegisters (written : Option Reg) (s t : State) : Prop :=
  RegsKept written s t ∧ t.pc = s.pc ∧ t.engine = s.engine ∧ MemoryKept s t ∧ PortKept s t ∧ HostSideKept s t

/-- Nothing changes but the Segment Table. -/
def OnlyMemory (s t : State) : Prop :=
  RegsKept none s t ∧ t.pc = s.pc ∧ t.engine = s.engine ∧ PortKept s t ∧ HostSideKept s t

/-- Slot `j` keeps its mapped flag, its length and its words. -/
def SlotKept (j : Nat) (s t : State) : Prop :=
  t.memory.lenOf j = s.memory.lenOf j ∧ ∀ off, t.memory.word j off = s.memory.word j off

/-- The step ends in `Faulted(f)` and nothing else changes (spec/60_exceptions.md R232). -/
def FaultedOnly (f : FaultCause) (s t : State) : Prop :=
  t.engine = .faulted f ∧ RegsKept none s t ∧ t.pc = s.pc ∧ MemoryKept s t ∧ PortKept s t ∧ HostSideKept s t

/-- The engine runs, the image is loaded, and `w` is the word at (segment 0, pc): the next step executes `w`. -/
def State.runs (s : State) (w : Word) : Prop :=
  s.engine = .running ∧ s.awaitingImage = false ∧ 0 < s.params.nseg ∧ s.memory.word 0 s.pc.toNat = some w

/-- The fault name of an instruction's own check, where it has one (R235). -/
def ownFault : Instr → Option FaultCause
  | .cmov _ _ _ => none
  | .sload _ _ _ => some .segmentFault
  | .sstore _ _ _ => some .segmentFault
  | .add _ _ _ => none
  | .mul _ _ _ => none
  | .div _ _ _ => some .divisionByZero
  | .nand _ _ _ => none
  | .halt => none
  | .map _ _ => some .resourceExhausted
  | .unmap _ => some .invalidSegment
  | .out _ => some .outOfRange
  | .inp _ => none
  | .loadprog _ _ => some .segmentFault
  | .limm _ _ => none
  | .illegal14 => some .illegalOpcode
  | .illegal15 => some .illegalOpcode

/-- The bits of a word that its opcode gives a meaning (spec/30_encoding.md R96, R97). -/
def usedMask (op : BitVec 4) : Word :=
  match op.toNat with
  | 7 => 0xF0000000
  | 8 => 0xF000003F
  | 9 => 0xF0000007
  | 10 => 0xF0000007
  | 11 => 0xF0000007
  | 12 => 0xF000003F
  | 13 => 0xFFFFFFFF
  | 14 => 0xF0000000
  | 15 => 0xF0000000
  | _ => 0xF00001FF

/-- Two states that differ at most in the record of the host's choices. -/
def SameMachine (s u : State) : Prop :=
  s.params = u.params ∧ s.regs = u.regs ∧ s.pc = u.pc ∧ s.engine = u.engine ∧ s.memory = u.memory ∧
    s.output = u.output ∧ s.inReq = u.inReq ∧ s.awaitingImage = u.awaitingImage

end Sys2Proof.Machine
end

