-- ==== Sys2Proof/Certificates/Slice0/Obligations.lean ====
section
/-! DEFINITION. The statements for the provers, one per entry of OBLIGATIONS.json. In a statement about `exec`, `s` is the
state after the fetch advance (spec/40_execution_loop.md R122); how a step reaches it is `StepRunsDecodedInstruction`. -/

open Sys2Proof Sys2Proof.Machine

/-! ### Encoding -/

/-- Words written out from the encoding tables decode to their instructions (30_encoding.md R92, R93, R98). -/
def Obligations.DecodedWordsOfEveryFamily : Prop :=
  decode 0x00000053 = .cmov 1 2 3 ∧ decode 0x0ABCDE53 = .cmov 1 2 3 ∧ decode 0x10000153 = .sload 5 2 3 ∧
    decode 0x2000009C = .sstore 2 3 4 ∧ decode 0x3000000A = .add 0 1 2 ∧ decode 0x400000E5 = .mul 3 4 5 ∧
    decode 0x5000000A = .div 0 1 2 ∧ decode 0x600001FF = .nand 7 7 7 ∧ decode 0x7FFFFFFF = .halt ∧
    decode 0x80000011 = .map 2 1 ∧ decode 0x90000002 = .unmap 2 ∧ decode 0xA0000003 = .out 3 ∧
    decode 0xB0000003 = .inp 3 ∧ decode 0xC0000038 = .loadprog 7 0 ∧ decode 0xD1FFFFFF = .limm 0 0x01FFFFFF ∧
    decode 0xE0000000 = .illegal14 ∧ decode 0xFFFFFFFF = .illegal15

/-- Decoding the word of a well-formed instruction gives the instruction back. -/
def Obligations.DecodeOfEncodeIsIdentity : Prop :=
  ∀ i : Instr, i.wf = true → decode (encode i) = i

/-- Every word decodes to one well-formed instruction, whose own word is the decoded word's used bits. -/
def Obligations.EncodeOfDecodeKeepsUsedBits : Prop :=
  ∀ w : Word, (decode w).wf = true ∧ encode (decode w) = w &&& usedMask (opField w)

/-- Bits 27:9 of a Standard word and unused register fields are ignored, and an assembler writes them as 0 (R96, R97). -/
def Obligations.DecodeIgnoresUnusedBits : Prop :=
  (∀ w : Word, decode w = decode (w &&& usedMask (opField w))) ∧
    ∀ i : Instr, i.wf = true → encode i &&& usedMask (opField (encode i)) = encode i

/-! ### The step -/

/-- The step at a word runs the decoded instruction on the state whose pc alone has advanced (R120, R122, R124). -/
def Obligations.StepRunsDecodedInstruction : Prop :=
  ∀ (s : State) (w : Word) (i : Instr), s.runs w → decode w = i →
    step s = exec i s.advance ∧ s.advance = { s with pc := s.pc + 1 }

/-- A fetch at a pc that indexes no word of segment 0 faults and leaves the pc (R121). -/
def Obligations.FetchOutOfBoundsFaults : Prop :=
  ∀ s : State, s.engine = .running → s.awaitingImage = false → s.memory.word 0 s.pc.toNat = none →
    ∃ t, step s = .next t ∧ FaultedOnly .segmentFault s t

/-- A word of opcode 14 or 15 faults, with the pc advanced and no other change (R99, R123). -/
def Obligations.IllegalWordFaults : Prop :=
  ∀ (s : State) (w : Word), s.runs w → 14 ≤ (opField w).toNat →
    ∃ t, step s = .next t ∧ FaultedOnly .illegalOpcode s.advance t ∧ t.pc = s.pc + 1

/-- The two unassigned opcodes as instructions: their whole effect is the fault (R99, R123, R126). -/
def Obligations.IllegalInstructionsFault : Prop :=
  ∀ s : State, (∃ t, exec .illegal14 s = .next t ∧ FaultedOnly .illegalOpcode s t) ∧
    ∃ t, exec .illegal15 s = .next t ∧ FaultedOnly .illegalOpcode s t

/-- There is a step exactly while the engine runs, so no instruction is refused (R26, R128, R268). A Running engine that
waits for an IN answer (R127, R268) or for its image (R261) takes no step in the spec; that one poll of the host is a step
there too is the model's choice, log entries 4, 5 and 14. So are the names of the two stops of a terminal state, log
entry 9. -/
def Obligations.StepsExactlyWhileRunning : Prop :=
  ∀ s : State, ((∃ t, step s = .next t) ↔ s.engine = .running) ∧ (s.engine = .halted → step s = .fault .engineHalted) ∧
    ∀ f, s.engine = .faulted f → step s = .fault (.engineFaulted f)

/-! ### Register and arithmetic instructions -/

/-- CMOV (R140). -/
def Obligations.ConditionalMove : Prop :=
  (∀ w : Word, opField w = 0 → decode w = .cmov (regField w 6) (regField w 3) (regField w 0)) ∧
    ∀ (a b c : Reg) (s : State), ∃ t, exec (.cmov a b c) s = .next t ∧
      (s.x c ≠ 0 → t.x a = s.x b) ∧ (s.x c = 0 → t.x a = s.x a) ∧ OnlyRegisters (some a) s t

/-- ADD (R141). -/
def Obligations.AddWraps : Prop :=
  (∀ w : Word, opField w = 3 → decode w = .add (regField w 6) (regField w 3) (regField w 0)) ∧
    ∀ (a b c : Reg) (s : State), ∃ t, exec (.add a b c) s = .next t ∧
      (t.x a).toNat = ((s.x b).toNat + (s.x c).toNat) % 2 ^ 32 ∧ OnlyRegisters (some a) s t

/-- MUL (R142). -/
def Obligations.MultiplyKeepsLowWord : Prop :=
  (∀ w : Word, opField w = 4 → decode w = .mul (regField w 6) (regField w 3) (regField w 0)) ∧
    ∀ (a b c : Reg) (s : State), ∃ t, exec (.mul a b c) s = .next t ∧
      (t.x a).toNat = ((s.x b).toNat * (s.x c).toNat) % 2 ^ 32 ∧ OnlyRegisters (some a) s t

/-- DIV (R143). -/
def Obligations.DivideIsUnsignedFloor : Prop :=
  (∀ w : Word, opField w = 5 → decode w = .div (regField w 6) (regField w 3) (regField w 0)) ∧
    ∀ (a b c : Reg) (s : State),
      (s.x c ≠ 0 → ∃ t, exec (.div a b c) s = .next t ∧ (t.x a).toNat = (s.x b).toNat / (s.x c).toNat ∧
        OnlyRegisters (some a) s t) ∧
      (s.x c = 0 → ∃ t, exec (.div a b c) s = .next t ∧ FaultedOnly .divisionByZero s t)

/-- NAND, bit by bit (R144). -/
def Obligations.NandBitwise : Prop :=
  (∀ w : Word, opField w = 6 → decode w = .nand (regField w 6) (regField w 3) (regField w 0)) ∧
    ∀ (a b c : Reg) (s : State), ∃ t, exec (.nand a b c) s = .next t ∧
      (∀ k < 32, (t.x a).getLsbD k = !((s.x b).getLsbD k && (s.x c).getLsbD k)) ∧ OnlyRegisters (some a) s t

/-- LIMM: the operand, and through the decoder the low 25 bits of the word, zero-extended (R145). -/
def Obligations.LoadImmediateZeroExtends : Prop :=
  (∀ (a : Reg) (imm : Word) (s : State), ∃ t, exec (.limm a imm) s = .next t ∧ t.x a = imm ∧
      OnlyRegisters (some a) s t) ∧
    ∀ (w : Word) (s : State), opField w = 13 → ∃ t, exec (decode w) s = .next t ∧
      (t.x (regField w 25)).toNat = w.toNat % 2 ^ 25 ∧ OnlyRegisters (some (regField w 25)) s t

/-! ### Segment instructions -/

/-- SLOAD (R170). -/
def Obligations.SegmentLoad : Prop :=
  (∀ w : Word, opField w = 1 → decode w = .sload (regField w 6) (regField w 3) (regField w 0)) ∧
    ∀ (a b c : Reg) (s : State),
      (∀ n, (s.x b).toNat < s.params.nseg → s.memory.lenOf (s.x b).toNat = some n → (s.x c).toNat < n →
        ∃ t, exec (.sload a b c) s = .next t ∧ s.memory.word (s.x b).toNat (s.x c).toNat = some (t.x a) ∧
          OnlyRegisters (some a) s t) ∧
      ((s.params.nseg ≤ (s.x b).toNat ∨ s.memory.lenOf (s.x b).toNat = none ∨
          ∃ n, s.memory.lenOf (s.x b).toNat = some n ∧ n ≤ (s.x c).toNat) →
        ∃ t, exec (.sload a b c) s = .next t ∧ FaultedOnly .segmentFault s t)

/-- SSTORE: the word stored to is (x[A], x[B]); every other word, length and mapped flag stays (R171). -/
def Obligations.SegmentStore : Prop :=
  (∀ w : Word, opField w = 2 → decode w = .sstore (regField w 6) (regField w 3) (regField w 0)) ∧
    ∀ (a b c : Reg) (s : State),
      (∀ n, (s.x a).toNat < s.params.nseg → s.memory.lenOf (s.x a).toNat = some n → (s.x b).toNat < n →
        ∃ t, exec (.sstore a b c) s = .next t ∧ t.memory.word (s.x a).toNat (s.x b).toNat = some (s.x c) ∧
          (∀ id off, (id, off) ≠ ((s.x a).toNat, (s.x b).toNat) → t.memory.word id off = s.memory.word id off) ∧
          (∀ id, t.memory.lenOf id = s.memory.lenOf id) ∧ OnlyMemory s t) ∧
      ((s.params.nseg ≤ (s.x a).toNat ∨ s.memory.lenOf (s.x a).toNat = none ∨
          ∃ n, s.memory.lenOf (s.x a).toNat = some n ∧ n ≤ (s.x b).toNat) →
        ∃ t, exec (.sstore a b c) s = .next t ∧ FaultedOnly .segmentFault s t)

/-- MAP: the lowest unmapped identifier of 1..NSEG-1, a zero-filled slot, or the fault (R172, R54). -/
def Obligations.MapTakesLowestFreeSlot : Prop :=
  (∀ w : Word, opField w = 8 → decode w = .map (regField w 3) (regField w 0)) ∧
    ∀ (b c : Reg) (s : State), s.params.nseg ≤ 2 ^ 32 →
      (∀ id, (s.x c).toNat ≤ s.params.maxSegWords → 1 ≤ id → id < s.params.nseg → s.memory.lenOf id = none →
          (∀ j, 1 ≤ j → j < id → s.memory.lenOf j ≠ none) →
        ∃ t, exec (.map b c) s = .next t ∧ (t.x b).toNat = id ∧ t.memory.lenOf id = some (s.x c).toNat ∧
          (∀ k < (s.x c).toNat, t.memory.word id k = some 0) ∧ (∀ j, j ≠ id → SlotKept j s t) ∧
          RegsKept (some b) s t ∧ t.pc = s.pc ∧ t.engine = s.engine ∧ PortKept s t ∧ HostSideKept s t) ∧
      ((s.params.maxSegWords < (s.x c).toNat ∨ ∀ j, 1 ≤ j → j < s.params.nseg → s.memory.lenOf j ≠ none) →
        ∃ t, exec (.map b c) s = .next t ∧ FaultedOnly .resourceExhausted s t)

/-- UNMAP (R173). -/
def Obligations.UnmapFreesOneSlot : Prop :=
  (∀ w : Word, opField w = 9 → decode w = .unmap (regField w 0)) ∧
    ∀ (c : Reg) (s : State),
      (s.x c ≠ 0 → (s.x c).toNat < s.params.nseg → s.memory.lenOf (s.x c).toNat ≠ none →
        ∃ t, exec (.unmap c) s = .next t ∧ t.memory.lenOf (s.x c).toNat = none ∧
          (∀ j, j ≠ (s.x c).toNat → SlotKept j s t) ∧ OnlyMemory s t) ∧
      ((s.x c = 0 ∨ s.params.nseg ≤ (s.x c).toNat ∨ s.memory.lenOf (s.x c).toNat = none) →
        ∃ t, exec (.unmap c) s = .next t ∧ FaultedOnly .invalidSegment s t)

/-- LOADPROG: a jump, a copy and a jump, or the fault (R174). -/
def Obligations.LoadProgramCopiesAndJumps : Prop :=
  (∀ w : Word, opField w = 12 → decode w = .loadprog (regField w 3) (regField w 0)) ∧
    ∀ (b c : Reg) (s : State),
      (s.x b = 0 → ∃ t, exec (.loadprog b c) s = .next t ∧ t.pc = s.x c ∧ RegsKept none s t ∧ t.engine = s.engine ∧
        MemoryKept s t ∧ PortKept s t ∧ HostSideKept s t) ∧
      (s.x b ≠ 0 → (s.x b).toNat < s.params.nseg → s.memory.lenOf (s.x b).toNat ≠ none →
        ∃ t, exec (.loadprog b c) s = .next t ∧ t.pc = s.x c ∧
          t.memory.lenOf 0 = s.memory.lenOf (s.x b).toNat ∧
          (∀ off, t.memory.word 0 off = s.memory.word (s.x b).toNat off) ∧ (∀ j, j ≠ 0 → SlotKept j s t) ∧
          RegsKept none s t ∧ t.engine = s.engine ∧ PortKept s t ∧ HostSideKept s t) ∧
      (s.x b ≠ 0 → (s.params.nseg ≤ (s.x b).toNat ∨ s.memory.lenOf (s.x b).toNat = none) →
        ∃ t, exec (.loadprog b c) s = .next t ∧ FaultedOnly .segmentFault s t)

/-! ### Halt, output and input -/

/-- HALT (R200). -/
def Obligations.HaltStopsTheEngine : Prop :=
  (∀ w : Word, opField w = 7 → decode w = .halt) ∧
    ∀ s : State, ∃ t, exec .halt s = .next t ∧ t.engine = .halted ∧ RegsKept none s t ∧ t.pc = s.pc ∧ MemoryKept s t ∧
      PortKept s t ∧ HostSideKept s t

/-- OUT (R201). -/
def Obligations.OutputAppendsOneByte : Prop :=
  (∀ w : Word, opField w = 10 → decode w = .out (regField w 0)) ∧
    ∀ (c : Reg) (s : State),
      ((s.x c).toNat ≤ 255 → ∃ t, exec (.out c) s = .next t ∧ t.output = s.output ++ [BitVec.ofNat 8 (s.x c).toNat] ∧
        RegsKept none s t ∧ t.pc = s.pc ∧ t.engine = s.engine ∧ MemoryKept s t ∧ t.inReq = s.inReq ∧ HostSideKept s t) ∧
      (255 < (s.x c).toNat → ∃ t, exec (.out c) s = .next t ∧ FaultedOnly .outOfRange s t)

/-- IN with an answer that the state fixes (R202, R206). That the state can fix the host's next replies is the model's
own device, log entry 3. -/
def Obligations.InputCompletesWithAnswer : Prop :=
  ∀ (c : Reg) (s : State) (a : Answer) (rest : List (Option Answer)), s.hostReplies = some a :: rest →
    ∃ t, exec (.inp c) s = .next t ∧ (∀ b, a = .byte b → (t.x c).toNat = b.toNat) ∧
      (a = .eof → t.x c = 0xFFFFFFFF) ∧ t.inReq = false ∧ t.hostReplies = rest ∧ RegsKept (some c) s t ∧
      t.pc = s.pc ∧ t.engine = s.engine ∧ MemoryKept s t ∧ t.output = s.output ∧ t.params = s.params ∧
      t.awaitingImage = s.awaitingImage ∧ t.polls = s.polls ∧ t.loads = s.loads

/-- IN whose answer the state leaves free: it completes with the free answer, or waits when there is none yet (R206,
R208). The free value is `Config.hostReply`, log entry 3. That an unanswered poll is a step of its own, which takes the
fetch advance back (`t.pc = s.pc - 1`) and raises only the request, is the model's choice, log entry 4. -/
def Obligations.InputTakesAFreeDraw : Prop :=
  ∀ (c : Reg) (s : State), s.hostReplies = [] →
    ∃ t, exec (.inp c) s = .next t ∧ t.polls = s.polls + 1 ∧ t.hostReplies = [] ∧
      (match Config.hostReply s.polls with
        | some a => t.x c = answerWord a ∧ t.inReq = false ∧ t.pc = s.pc ∧ RegsKept (some c) s t
        | none => t.inReq = true ∧ t.pc = s.pc - 1 ∧ RegsKept none s t) ∧
      t.engine = s.engine ∧ MemoryKept s t ∧ t.output = s.output ∧ t.params = s.params ∧
      t.awaitingImage = s.awaitingImage ∧ t.loads = s.loads

/-- A step at an IN that the host has not answered: STATUS shows the wait and no architectural state has changed, the pc
included (R125, R127, R206; vector N5i). Log entries 3 and 4. -/
def Obligations.InputWaitsWithoutChange : Prop :=
  ∀ (c : Reg) (s : State) (w : Word) (rest : List (Option Answer)), s.runs w → decode w = .inp c →
    s.hostReplies = none :: rest →
    ∃ t, step s = .next t ∧ t.status = 0x00000004 ∧ t.inReq = true ∧ t.engine = .running ∧ t.pc = s.pc ∧
      RegsKept none s t ∧ MemoryKept s t ∧ t.output = s.output ∧ t.params = s.params ∧
      t.awaitingImage = s.awaitingImage ∧ t.hostReplies = rest ∧ t.polls = s.polls ∧ t.loads = s.loads

/-! ### What holds of every instruction -/

/-- An instruction writes no register but the one the read/write table names (R21). -/
def Obligations.InstructionWritesOnlyItsDestination : Prop :=
  ∀ (i : Instr) (s t : State), exec i s = .next t → RegsKept i.dest s t

/-- Memory changes only by SSTORE, MAP, UNMAP and LOADPROG (41_register_ops.md preamble; R53 to R56). -/
def Obligations.OnlySegmentInstructionsChangeMemory : Prop :=
  ∀ (i : Instr) (s t : State), exec i s = .next t →
    MemoryKept s t ∨ (∃ a b c, i = .sstore a b c) ∨ (∃ b c, i = .map b c) ∨ (∃ c, i = .unmap c) ∨ ∃ b c, i = .loadprog b c

/-- Only OUT reaches the output trace, and it appends (R203, R205). -/
def Obligations.OnlyOutputEmits : Prop :=
  ∀ (i : Instr) (s t : State), exec i s = .next t →
    t.output = s.output ∨ ∃ c, i = .out c ∧ ∃ b, t.output = s.output ++ [b]

/-- Only IN raises a request, and only IN draws a reply (R127, R203). -/
def Obligations.OnlyInputWaits : Prop :=
  ∀ (i : Instr) (s t : State), exec i s = .next t →
    (∃ c, i = .inp c) ∨ (t.inReq = s.inReq ∧ t.hostReplies = s.hostReplies ∧ t.polls = s.polls)

/-- A faulting instruction makes no change, the pc stays at the fetch advance (R126, R232). -/
def Obligations.FaultingInstructionChangesNothing : Prop :=
  ∀ (i : Instr) (s t : State) (f : FaultCause), s.engine = .running → exec i s = .next t → t.engine = .faulted f →
    FaultedOnly f s t

/-- An instruction's own check raises its one fault name (R235). -/
def Obligations.InstructionHasOneFaultName : Prop :=
  ∀ (i : Instr) (s t : State) (f : FaultCause), s.engine = .running → exec i s = .next t → t.engine = .faulted f →
    ownFault i = some f

/-- The pc in `Faulted`: the offset that could not be fetched, else the offset after the faulting instruction (R233). -/
def Obligations.PcAfterAFault : Prop :=
  ∀ (s t : State) (f : FaultCause), s.awaitingImage = false → 0 < s.params.nseg → step s = .next t →
    t.engine = .faulted f →
    (s.memory.word 0 s.pc.toNat = none → t.pc = s.pc) ∧ (s.memory.word 0 s.pc.toNat ≠ none → t.pc = s.pc + 1)

/-- The pc after a step: one more, or LOADPROG's target (R24, R122), or the same while an IN waits, which is the model's
reading of an incomplete step, log entry 4. -/
def Obligations.PcAdvancesOrIsLoaded : Prop :=
  ∀ (s t : State) (w : Word), s.runs w → step s = .next t →
    t.pc = s.pc + 1 ∨ (∃ b c, decode w = .loadprog b c ∧ t.pc = s.x c) ∨
      ∃ c, decode w = .inp c ∧ t.inReq = true ∧ t.pc = s.pc

/-- No step changes the parameters (R9). -/
def Obligations.StepKeepsParameters : Prop :=
  ∀ s t : State, step s = .next t → t.params = s.params

/-- Given the host's reply, the next state is determined by the machine's own state (R130). -/
def Obligations.StepDeterminedByStateAndReply : Prop :=
  ∀ s u t : State, SameMachine s u → s.awaitingImage = false → s.hostAnswer = u.hostAnswer → step s = .next t →
    ∃ v, step u = .next v ∧ SameMachine t v

/-! ### Invariants -/

/-- The invariant holds after reset, at every legal configuration (R260, R31). -/
def Obligations.InvariantHoldsAfterReset : Prop :=
  (∀ p : Params, p.legal → (State.resetWith p).inv = true) ∧ State.reset.inv = true

/-- Every step keeps the invariant: legal parameters, canonical Segment Table within capacity, slot 0 mapped (R31), a
pending request only at an IN (R127). The canonical form is the model's representation, log entry 1. -/
def Obligations.StepKeepsInvariant : Prop :=
  ∀ s t : State, s.inv = true → step s = .next t → t.inv = true

/-- The invariant holds in every state the block can be in, resets by the host among them: a corollary of the step lemma
`StepKeepsInvariant`. The model's choices it rests on: the canonical form in the invariant (log entry 1), the parameters as
fields (2), that a waiting IN's pc stands at the IN (4), that the free image is drawn by a step (5), segment 0 before the
load and after a refused image (6, 7), and reset as a move of `Reachable` (11). -/
def Obligations.ReachableStatesMeetInvariant : Prop :=
  ∀ (p : Params) (s : State), p.legal → Reachable p s → s.inv = true ∧ s.params = p

/-- Slot 0 is always mapped and every length is within MAX_SEG_WORDS, in every reachable state; UNMAP cannot free slot 0
and MAP cannot return it (R31): a corollary of the step lemma `StepKeepsInvariant`. Which states are reachable rests on the
model's choices of log entries 2 (the parameters), 5 (the load as a step), 6 (segment 0 before the load), 7 (its length
after a refused image) and 11 (reset). -/
def Obligations.SegmentTableInvariant : Prop :=
  ∀ (p : Params) (s : State), p.legal → Reachable p s →
    (∃ n, s.memory.lenOf 0 = some n) ∧ (∀ id n, s.memory.lenOf id = some n → id < p.nseg ∧ n ≤ p.maxSegWords) ∧
      s.segFree 0 = .error .invalidSegment ∧ ∀ n id t, s.segAlloc n = .ok (id, t) → id ≠ 0

/-- The fetch advance never wraps (R25). -/
def Obligations.PcIncrementNeverWraps : Prop :=
  ∀ (s : State) (w : Word), s.inv = true → s.memory.word 0 s.pc.toNat = some w →
    s.pc.toNat + 1 ≤ 2 ^ 32 - 1 ∧ s.advance.pc.toNat = s.pc.toNat + 1

/-- While a request is pending, a step waits on unchanged or completes the waiting IN (R127, R206). One step for each poll
of the host is the model's choice, log entry 4. -/
def Obligations.WaitEndsOnlyWithTheAnswer : Prop :=
  ∀ s t : State, s.inv = true → s.inReq = true → step s = .next t →
    (s.hostAnswer = none → t.inReq = true ∧ t.pc = s.pc ∧ RegsKept none s t ∧ MemoryKept s t ∧ t.output = s.output) ∧
    ∀ a, s.hostAnswer = some a → t.inReq = false ∧ t.pc = s.pc + 1 ∧ MemoryKept s t ∧ t.output = s.output ∧
      ∃ c, t.x c = answerWord a ∧ RegsKept (some c) s t

/-! ### The Segment Table -/

/-- A word stored is the word read, and no other word changes (R53, R68). -/
def Obligations.StoreThenReadReturnsTheWord : Prop :=
  ∀ (s t : State) (id off v : Word), s.segWrite id off v = .ok t →
    t.segRead id off = .ok v ∧ ∀ j k : Word, (j, k) ≠ (id, off) → t.segRead j k = s.segRead j k

/-- The next fetch sees a store to segment 0 and the segment LOADPROG installs (R71). -/
def Obligations.FetchSeesEveryEarlierEffect : Prop :=
  (∀ (s t : State) (off v : Word), s.segWrite 0 off v = .ok t → (t.setPc off).fetch = .ok v) ∧
    ∀ (s t : State) (id off : Word), s.validId 0 = true → s.segReplaceZero id = .ok t →
      (t.setPc off).fetch = s.segRead id off

/-- Mapping, storing into the slot, unmapping it and mapping again gives the same identifier and words of 0 (R172, S3). -/
def Obligations.RemapReturnsSameIdentifierZeroed : Prop :=
  ∀ (s s1 s2 : State) (n id off v : Word), s.params.nseg ≤ 2 ^ 32 → s.segAlloc n = .ok (id, s1) →
    (s2 = s1 ∨ s1.segWrite id off v = .ok s2) →
    ∃ s3 s4, s2.segFree id = .ok s3 ∧ s3.segAlloc n = .ok (id, s4) ∧
      ∀ k : Word, k.toNat < n.toNat → s4.segRead id k = .ok 0

/-- Every access through an identifier that is unmapped or not below NSEG faults (R51, R52, R53, R55, R56, R59). -/
def Obligations.UnmappedIdentifierFaults : Prop :=
  ∀ (s : State) (id off v : Word), s.params.nseg ≤ id.toNat ∨ s.memory.lenOf id.toNat = none →
    s.segRead id off = .error .segmentFault ∧ s.segWrite id off v = .error .segmentFault ∧
      s.segFree id = .error .invalidSegment ∧ (id ≠ 0 → s.segReplaceZero id = .error .segmentFault)

/-- After the copy, a store to either segment does not reach the other (R56, R60). -/
def Obligations.ReplacementIsACopy : Prop :=
  ∀ (s t u : State) (id off v : Word), id ≠ 0 → s.segReplaceZero id = .ok t →
    (t.segWrite 0 off v = .ok u → ∀ k, u.memory.word id.toNat k = s.memory.word id.toNat k) ∧
      (t.segWrite id off v = .ok u → ∀ k, u.memory.word 0 k = s.memory.word id.toNat k)

/-- In the reference placement, words in bounds lie in the store and two different ones never share a place (R58, R60). -/
def Obligations.PlacementIsDisjoint : Prop :=
  ∀ (s : State) (id off id' off' : Word), s.inv = true → (s.index id off).1 = true → (s.index id' off').1 = true →
    (s.index id off).2 < s.params.nseg * s.params.maxSegWords ∧
      ((s.index id off).2 = (s.index id' off').2 → id = id' ∧ off = off')

/-! ### Status, reset and load -/

/-- The fields of STATUS (R27). -/
def Obligations.StatusWordFields : Prop :=
  ∀ s : State,
    (s.engine = .running → s.status.extractLsb' 0 2 = 0) ∧ (s.engine = .halted → s.status.extractLsb' 0 2 = 1) ∧
    (∀ f, s.engine = .faulted f → s.status.extractLsb' 0 2 = 2 ∧ s.status.extractLsb' 8 4 = f.code) ∧
    (s.status.getLsbD 2 = true ↔ s.engine = .running ∧ s.inReq = true) ∧
    ((∀ f, s.engine ≠ .faulted f) → s.status.extractLsb' 8 4 = 0) ∧
    s.status.extractLsb' 3 5 = 0 ∧ s.status.extractLsb' 12 20 = 0

/-- The fault codes: 1 to 7 in the order of the table, none shared, the others never produced (R230). -/
def Obligations.FaultCodes : Prop :=
  FaultCause.illegalOpcode.code = 1 ∧ FaultCause.segmentFault.code = 2 ∧ FaultCause.invalidSegment.code = 3 ∧
    FaultCause.divisionByZero.code = 4 ∧ FaultCause.outOfRange.code = 5 ∧ FaultCause.resourceExhausted.code = 6 ∧
    FaultCause.invalidProgram.code = 7 ∧ ∀ f : FaultCause, 1 ≤ f.code.toNat ∧ f.code.toNat ≤ 7

/-- The state after reset and the load of a valid image (R260). -/
def Obligations.LoadGivesTheInitialState : Prop :=
  ∀ (s : State) (img : Image), img.marker = .ok → img.words.length ≤ s.params.maxSegWords →
    (∀ r, (s.load img).x r = 0) ∧ (s.load img).pc = 0 ∧ (s.load img).engine = .running ∧ (s.load img).status = 0 ∧
      (s.load img).memory.lenOf 0 = some img.words.length ∧
      (∀ k, (s.load img).memory.word 0 k = img.words[k]?) ∧ (∀ id, 1 ≤ id → (s.load img).memory.lenOf id = none) ∧
      (s.load img).output = [] ∧ (s.load img).inReq = false ∧ (s.load img).awaitingImage = false ∧
      (s.load img).params = s.params

/-- An image that ends in `invalid` or that a slot cannot hold leaves the block in `Faulted(InvalidProgram)`, which takes
no step (R263). Segment 0's words are free values, log entry 7. -/
def Obligations.InvalidImageFaults : Prop :=
  ∀ (s : State) (img : Image), img.marker = .invalid ∨ s.params.maxSegWords < img.words.length →
    (s.load img).engine = .faulted .invalidProgram ∧ (s.load img).status = 0x00000702 ∧
      step (s.load img) = .fault (.engineFaulted .invalidProgram) ∧ (∀ r, (s.load img).x r = 0) ∧ (s.load img).pc = 0 ∧
      (∃ n, (s.load img).memory.lenOf 0 = some n ∧ n ≤ s.params.maxSegWords ∧
        (img.words.length ≤ s.params.maxSegWords → n = img.words.length)) ∧
      ∀ id, 1 ≤ id → (s.load img).memory.lenOf id = none

/-- The words of an image file are big-endian (R262), and a length that is not a multiple of four is invalid (R263). That
such a file gives as many words as it has complete ones, `bytes.length / 4`, is the model's choice, log entry 15. -/
def Obligations.ImageWordsAreBigEndian : Prop :=
  ∀ bytes : List Byte,
    ((imageOfBytes bytes).marker = .ok ↔ bytes.length % 4 = 0) ∧
    (imageOfBytes bytes).words.length = bytes.length / 4 ∧
    ∀ (k : Nat) (b0 b1 b2 b3 : Byte), bytes[4 * k]? = some b0 → bytes[4 * k + 1]? = some b1 →
      bytes[4 * k + 2]? = some b2 → bytes[4 * k + 3]? = some b3 →
      ∃ v, (imageOfBytes bytes).words[k]? = some v ∧
        v.toNat = b0.toNat * 2 ^ 24 + b1.toNat * 2 ^ 16 + b2.toNat * 2 ^ 8 + b3.toNat

/-- No instruction executes before the image is complete: a step asks the host, waits on unchanged, or ends the load
(R261, R266). The image is the free value `Config.hostImage`, log entry 5. -/
def Obligations.NothingRunsBeforeTheImage : Prop :=
  ∀ s : State, s.engine = .running → s.awaitingImage = true →
    ∃ t, step s = .next t ∧ t.loads = s.loads + 1 ∧
      match Config.hostImage s.loads with
        | some img => t = { s with loads := s.loads + 1 }.load img
        | none => t = { s with loads := s.loads + 1 }

/-- Reset, in any engine state: it runs again, waits for an image, withdraws the request, clears the output trace and
unmaps slots 1..NSEG-1 (R266). That slot 0 is mapped and the registers and the pc are 0 before the image comes is the
model's choice, log entry 6. -/
def Obligations.ResetRestoresTheStart : Prop :=
  ∀ s : State, s.hostReset.engine = .running ∧ s.hostReset.awaitingImage = true ∧ s.hostReset.inReq = false ∧
    s.hostReset.output = [] ∧ (∀ id, 1 ≤ id → s.hostReset.memory.lenOf id = none) ∧
    (∃ n, s.hostReset.memory.lenOf 0 = some n) ∧ (∀ r, s.hostReset.x r = 0) ∧ s.hostReset.pc = 0 ∧
    s.hostReset.params = s.params
end

