-- ==== Sys2Proof/Laws/Table.lean ====
section
/-! SUPPORT. The laws of sparse tables: reading after writing, and the canonical form. -/

namespace Sys2Proof.Machine

variable {α : Type}

@[simp] theorem Table.find_nil (k : Nat) : Table.find ([] : List (Nat × α)) k = none := rfl

theorem Table.find_put_same (t : List (Nat × α)) (k : Nat) (v : α) : Table.find (Table.put t k v) k = some v := by
  induction t with
  | nil => simp [Table.put, Table.find]
  | cons e t ih =>
    obtain ⟨j, u⟩ := e
    by_cases h1 : k < j
    · simp [Table.put, Table.find, h1]
    · by_cases h2 : j = k
      · simp [Table.put, Table.find, h2]
      · simp [Table.put, Table.find, h1, h2, ih]

theorem Table.find_put_other (t : List (Nat × α)) {k l : Nat} (v : α) (h : l ≠ k) :
    Table.find (Table.put t k v) l = Table.find t l := by
  induction t with
  | nil => simp [Table.put, Table.find, h.symm]
  | cons e t ih =>
    obtain ⟨j, u⟩ := e
    by_cases h1 : k < j
    · simp [Table.put, Table.find, h1, h.symm]
    · by_cases h2 : j = k
      · subst h2
        simp [Table.put, Table.find, h.symm]
      · simp [Table.put, Table.find, h1, h2, ih]

theorem Table.find_erase_same (t : List (Nat × α)) (k : Nat) : Table.find (Table.erase t k) k = none := by
  induction t with
  | nil => rfl
  | cons e t ih =>
    obtain ⟨j, u⟩ := e
    by_cases h : j = k <;> simp [Table.erase, Table.find, h, ih]

theorem Table.find_erase_other (t : List (Nat × α)) {k l : Nat} (h : l ≠ k) :
    Table.find (Table.erase t k) l = Table.find t l := by
  induction t with
  | nil => rfl
  | cons e t ih =>
    obtain ⟨j, u⟩ := e
    by_cases h2 : j = k
    · subst h2
      simp [Table.erase, Table.find, ih, h.symm]
    · simp [Table.erase, Table.find, h2, ih]

theorem Table.mem_of_find {t : List (Nat × α)} {k : Nat} {v : α} (h : Table.find t k = some v) : (k, v) ∈ t := by
  induction t with
  | nil => cases h
  | cons e t ih =>
    obtain ⟨j, u⟩ := e
    by_cases h2 : j = k
    · subst h2
      simp [Table.find] at h
      simp [h]
    · simp [Table.find, h2] at h
      exact List.mem_cons_of_mem _ (ih h)

theorem Table.mem_put {t : List (Nat × α)} {k : Nat} {v : α} {e : Nat × α} (h : e ∈ Table.put t k v) :
    e = (k, v) ∨ e ∈ t := by
  induction t with
  | nil => simpa [Table.put] using h
  | cons f t ih =>
    obtain ⟨j, u⟩ := f
    unfold Table.put at h
    split at h
    · simpa using h
    · split at h
      · rcases List.mem_cons.1 h with h | h
        · exact .inl h
        · exact .inr (List.mem_cons_of_mem _ h)
      · rcases List.mem_cons.1 h with h | h
        · exact .inr (h ▸ List.mem_cons_self)
        · exact (ih h).imp id (List.mem_cons_of_mem _)

theorem Table.mem_erase {t : List (Nat × α)} {k : Nat} {e : Nat × α} (h : e ∈ Table.erase t k) : e ∈ t := by
  induction t with
  | nil => exact h
  | cons f t ih =>
    obtain ⟨j, u⟩ := f
    unfold Table.erase at h
    split at h
    · exact List.mem_cons_of_mem _ (ih h)
    · rcases List.mem_cons.1 h with h | h
      · exact h ▸ List.mem_cons_self
      · exact List.mem_cons_of_mem _ (ih h)

/-- A sorted table is a key below all keys of a sorted table. -/
theorem Table.sorted_cons {j : Nat} {u : α} {t : List (Nat × α)} :
    Table.sorted ((j, u) :: t) = true ↔ (∀ e ∈ t, j < e.1) ∧ Table.sorted t = true := by
  simp [Table.sorted]

theorem Table.sorted_put {t : List (Nat × α)} (k : Nat) (v : α) (h : Table.sorted t = true) :
    Table.sorted (Table.put t k v) = true := by
  induction t with
  | nil => simp [Table.put, Table.sorted]
  | cons f t ih =>
    obtain ⟨j, u⟩ := f
    obtain ⟨hj, ht⟩ := Table.sorted_cons.1 h
    by_cases h1 : k < j
    · rw [show Table.put ((j, u) :: t) k v = (k, v) :: (j, u) :: t by simp [Table.put, h1], Table.sorted_cons]
      refine ⟨fun e he => ?_, h⟩
      rcases List.mem_cons.1 he with rfl | he
      · exact h1
      · exact h1.trans (hj e he)
    · by_cases h2 : j = k
      · subst h2
        rw [show Table.put ((j, u) :: t) j v = (j, v) :: t by simp [Table.put], Table.sorted_cons]
        exact ⟨hj, ht⟩
      · rw [show Table.put ((j, u) :: t) k v = (j, u) :: Table.put t k v by simp [Table.put, h1, h2], Table.sorted_cons]
        refine ⟨fun e he => ?_, ih ht⟩
        rcases Table.mem_put he with rfl | he
        · show j < k
          omega
        · exact hj e he

theorem Table.sorted_erase {t : List (Nat × α)} (k : Nat) (h : Table.sorted t = true) :
    Table.sorted (Table.erase t k) = true := by
  induction t with
  | nil => rfl
  | cons f t ih =>
    obtain ⟨j, u⟩ := f
    obtain ⟨hj, ht⟩ := Table.sorted_cons.1 h
    by_cases h2 : j = k
    · rw [show Table.erase ((j, u) :: t) k = Table.erase t k by simp [Table.erase, h2]]
      exact ih ht
    · rw [show Table.erase ((j, u) :: t) k = (j, u) :: Table.erase t k by simp [Table.erase, h2], Table.sorted_cons]
      exact ⟨fun e he => hj e (Table.mem_erase he), ih ht⟩

/-- Two sorted tables that read the same are the same list: the form is canonical. -/
theorem Table.sorted_ext {t u : List (Nat × α)} (ht : Table.sorted t = true) (hu : Table.sorted u = true)
    (h : ∀ k, Table.find t k = Table.find u k) : t = u := by
  induction t generalizing u with
  | nil =>
    cases u with
    | nil => rfl
    | cons f u =>
      obtain ⟨j, v⟩ := f
      simpa [Table.find] using h j
  | cons e t ih =>
    obtain ⟨i, w⟩ := e
    cases u with
    | nil => simpa [Table.find] using h i
    | cons f u =>
      obtain ⟨j, v⟩ := f
      obtain ⟨hi, ht'⟩ := Table.sorted_cons.1 ht
      obtain ⟨hj, hu'⟩ := Table.sorted_cons.1 hu
      have hij : i = j := by
        rcases Nat.lt_trichotomy i j with hlt | heq | hlt
        · have h1 := h i
          simp only [Table.find, if_pos, if_neg (show ¬ j = i by omega)] at h1
          have := hj _ (Table.mem_of_find h1.symm)
          simp at this
          omega
        · exact heq
        · have h1 := h j
          simp only [Table.find, if_pos, if_neg (show ¬ i = j by omega)] at h1
          have := hi _ (Table.mem_of_find h1)
          simp at this
          omega
      subst hij
      have hw : w = v := by simpa [Table.find] using h i
      subst hw
      congr 1
      refine ih ht' hu' fun k => ?_
      by_cases hk : i = k
      · subst hk
        have h1 : Table.find t i = none := by
          cases hf : Table.find t i with
          | none => rfl
          | some x => exact absurd (hi _ (Table.mem_of_find hf)) (lt_irrefl _)
        have h2 : Table.find u i = none := by
          cases hf : Table.find u i with
          | none => rfl
          | some x => exact absurd (hj _ (Table.mem_of_find hf)) (lt_irrefl _)
        rw [h1, h2]
      · simpa [Table.find, hk] using h k

end Sys2Proof.Machine
end

