-- ==== Sys2Proof/Laws/Memory.lean ====
section
/-! SUPPORT. The Segment Table: reading after each operation, the lowest free identifier, and the canonical form, which
every operation keeps. -/

namespace Sys2Proof.Machine

/-! ### The words of one slot -/

@[simp] theorem Segment.write_len (g : Segment) (off : Nat) (v : Word) : (g.write off v).len = g.len := rfl

@[simp] theorem Segment.fresh_len (n : Nat) : (Segment.fresh n).len = n := rfl

@[simp] theorem Segment.fresh_read (n off : Nat) : (Segment.fresh n).read off = 0 := rfl

theorem Segment.write_cells_zero {v : Word} (h : v = 0) (g : Segment) (off : Nat) :
    (g.write off v).cells = Table.erase g.cells off := if_pos h

theorem Segment.write_cells_ne {v : Word} (h : v ≠ 0) (g : Segment) (off : Nat) :
    (g.write off v).cells = Table.put g.cells off v := if_neg h

@[simp] theorem Segment.write_read_same (g : Segment) (off : Nat) (v : Word) : (g.write off v).read off = v := by
  unfold Segment.read
  by_cases h : v = 0
  · rw [Segment.write_cells_zero h, Table.find_erase_same, h]
    rfl
  · rw [Segment.write_cells_ne h, Table.find_put_same]
    rfl

theorem Segment.write_read_other (g : Segment) {off l : Nat} (v : Word) (h : l ≠ off) :
    (g.write off v).read l = g.read l := by
  unfold Segment.read
  by_cases hv : v = 0
  · rw [Segment.write_cells_zero hv, Table.find_erase_other _ h]
  · rw [Segment.write_cells_ne hv, Table.find_put_other _ _ h]

@[simp] theorem Segment.ofWords_len (ws : List Word) : (Segment.ofWords ws).len = ws.length := rfl

theorem find_cellsFrom (k : Nat) (ws : List Word) (off : Nat) :
    (Table.find (cellsFrom k ws) off).getD 0 = if off < k then 0 else (ws[off - k]?).getD 0 := by
  induction ws generalizing k with
  | nil => simp [cellsFrom]
  | cons w ws ih =>
    have key : (if off < k + 1 then (0 : Word) else (ws[off - (k + 1)]?).getD 0) =
        if off = k then 0 else if off < k then 0 else ((w :: ws)[off - k]?).getD 0 := by
      rcases Nat.lt_trichotomy off k with h | h | h
      · simp [h, h.ne, Nat.lt_succ_of_lt h]
      · simp [h]
      · rw [if_neg (by omega), if_neg (by omega), if_neg (by omega), show off - k = (off - (k + 1)) + 1 by omega]
        simp
    by_cases hw : w = 0
    · rw [show cellsFrom k (w :: ws) = cellsFrom (k + 1) ws from if_pos hw, ih, key]
      by_cases hk : off = k
      · simp [hk, hw]
      · simp [hk]
    · rw [show cellsFrom k (w :: ws) = (k, w) :: cellsFrom (k + 1) ws from if_neg hw]
      by_cases hk : off = k
      · simp [hk, Table.find]
      · rw [show Table.find ((k, w) :: cellsFrom (k + 1) ws) off = Table.find (cellsFrom (k + 1) ws) off by
          simp [Table.find, Ne.symm hk], ih, key, if_neg hk]

/-- The slot made of a word sequence reads as that sequence (R260). -/
theorem Segment.ofWords_read (ws : List Word) (off : Nat) : (Segment.ofWords ws).read off = (ws[off]?).getD 0 := by
  simpa [Segment.read, Segment.ofWords] using find_cellsFrom 0 ws off

/-! ### The canonical form of one slot -/

theorem Segment.wf_iff {cap : Nat} {g : Segment} : g.wf cap = true ↔
    g.len ≤ cap ∧ Table.sorted g.cells = true ∧ ∀ e ∈ g.cells, e.1 < g.len ∧ e.2 ≠ 0 := by
  simp [Segment.wf, and_assoc]

theorem Segment.wf_fresh {cap n : Nat} (h : n ≤ cap) : (Segment.fresh n).wf cap = true :=
  Segment.wf_iff.2 ⟨h, rfl, fun e he => by cases he⟩

theorem Segment.wf_write {cap off : Nat} {g : Segment} (v : Word) (hg : g.wf cap = true) (h : off < g.len) :
    (g.write off v).wf cap = true := by
  obtain ⟨h1, h2, h3⟩ := Segment.wf_iff.1 hg
  by_cases hv : v = 0
  · rw [Segment.wf_iff, Segment.write_cells_zero hv]
    exact ⟨h1, Table.sorted_erase off h2, fun e he => h3 e (Table.mem_erase he)⟩
  · rw [Segment.wf_iff, Segment.write_cells_ne hv]
    refine ⟨h1, Table.sorted_put off v h2, fun e he => ?_⟩
    rcases Table.mem_put he with rfl | he
    · exact ⟨h, hv⟩
    · exact h3 e he

theorem mem_cellsFrom {k : Nat} {ws : List Word} {e : Nat × Word} (h : e ∈ cellsFrom k ws) :
    k ≤ e.1 ∧ e.1 < k + ws.length ∧ e.2 ≠ 0 := by
  induction ws generalizing k with
  | nil => cases h
  | cons w ws ih =>
    unfold cellsFrom at h
    simp only [List.length_cons]
    split at h
    · obtain ⟨h1, h2, h3⟩ := ih h
      exact ⟨by omega, by omega, h3⟩
    · rcases List.mem_cons.1 h with rfl | h
      · rename_i hw
        exact ⟨le_rfl, by simp, hw⟩
      · obtain ⟨h1, h2, h3⟩ := ih h
        exact ⟨by omega, by omega, h3⟩

theorem sorted_cellsFrom (k : Nat) (ws : List Word) : Table.sorted (cellsFrom k ws) = true := by
  induction ws generalizing k with
  | nil => rfl
  | cons w ws ih =>
    unfold cellsFrom
    split
    · exact ih _
    · exact Table.sorted_cons.2 ⟨fun e he => (mem_cellsFrom he).1, ih _⟩

theorem Segment.wf_ofWords {cap : Nat} {ws : List Word} (h : ws.length ≤ cap) : (Segment.ofWords ws).wf cap = true :=
  Segment.wf_iff.2 ⟨h, sorted_cellsFrom 0 ws, fun e he => by
    obtain ⟨-, h2, h3⟩ := mem_cellsFrom he
    exact ⟨by simpa [Segment.ofWords] using h2, h3⟩⟩

/-! ### Slots after each operation -/

@[simp] theorem Memory.install_seg_same (m : Memory) (id : Nat) (g : Segment) : (m.install id g).seg id = some g :=
  Table.find_put_same _ _ _

theorem Memory.install_seg_other (m : Memory) {id j : Nat} (g : Segment) (h : j ≠ id) :
    (m.install id g).seg j = m.seg j := Table.find_put_other _ _ h

@[simp] theorem Memory.unmap_seg_same (m : Memory) (id : Nat) : (m.unmap id).seg id = none := Table.find_erase_same _ _

theorem Memory.unmap_seg_other (m : Memory) {id j : Nat} (h : j ≠ id) : (m.unmap id).seg j = m.seg j :=
  Table.find_erase_other _ h

/-- `words[id][off]` of a mapped slot. -/
theorem Memory.word_of_seg {m : Memory} {id : Nat} {g : Segment} (h : m.seg id = some g) (off : Nat) :
    m.word id off = if off < g.len then some (g.read off) else none := by
  simp [Memory.word, h]

/-- `words[id][off]` exists exactly when (id, off) is inside a mapped slot. -/
theorem Memory.word_isSome (m : Memory) (id off : Nat) :
    (m.word id off).isSome = decide (off < (m.lenOf id).getD 0) := by
  unfold Memory.word Memory.lenOf
  cases m.seg id with
  | none => simp
  | some g => by_cases h : off < g.len <;> simp [h]

/-- A slot that is the same reads the same. -/
theorem Memory.word_congr {m n : Memory} {id : Nat} (h : m.seg id = n.seg id) (off : Nat) :
    m.word id off = n.word id off := by
  simp [Memory.word, h]

theorem Memory.lenOf_congr {m n : Memory} {id : Nat} (h : m.seg id = n.seg id) : m.lenOf id = n.lenOf id := by
  simp [Memory.lenOf, h]

/-- `store` keeps every mapped flag and every length. -/
theorem Memory.store_lenOf (m : Memory) (id off : Nat) (v : Word) (j : Nat) : (m.store id off v).lenOf j = m.lenOf j := by
  unfold Memory.store
  cases h : m.seg id with
  | none => rfl
  | some g =>
    by_cases hj : j = id
    · subst hj
      simp [Memory.lenOf, h]
    · exact Memory.lenOf_congr (Memory.install_seg_other _ _ hj)

/-- A store is read back, where the word exists. -/
theorem Memory.store_word_same {m : Memory} {id off : Nat} (v : Word) (h : off < (m.lenOf id).getD 0) :
    (m.store id off v).word id off = some v := by
  unfold Memory.lenOf at h
  cases hs : m.seg id with
  | none => simp [hs] at h
  | some g =>
    simp [hs] at h
    rw [show m.store id off v = m.install id (g.write off v) by simp [Memory.store, hs],
      Memory.word_of_seg (Memory.install_seg_same _ _ _)]
    simp [h]

/-- A store leaves every other word alone. -/
theorem Memory.store_word_other {m : Memory} {id off : Nat} (v : Word) {j l : Nat} (h : (j, l) ≠ (id, off)) :
    (m.store id off v).word j l = m.word j l := by
  unfold Memory.store
  cases hs : m.seg id with
  | none => rfl
  | some g =>
    by_cases hj : j = id
    · subst hj
      have hl : l ≠ off := fun h' => h (by rw [h'])
      rw [Memory.word_of_seg (Memory.install_seg_same _ _ _), Memory.word_of_seg hs, Segment.write_len,
        Segment.write_read_other _ _ hl]
    · exact Memory.word_congr (Memory.install_seg_other _ _ hj) l

/-- Slot 0 after the copy is the segment copied, and every other slot is unchanged (R56). -/
theorem Memory.copyToZero_seg {m : Memory} {id : Nat} {g : Segment} (h : m.seg id = some g) (j : Nat) :
    (m.copyToZero id).seg j = if j = 0 then some g else m.seg j := by
  rw [show m.copyToZero id = m.install 0 g by simp [Memory.copyToZero, h]]
  by_cases hj : j = 0
  · subst hj
    simp
  · simp [hj, Memory.install_seg_other]

/-- `lowestFree` is the least unmapped identifier of its range (R54). -/
theorem Memory.lowestFree_eq_some {m : Memory} {i n id : Nat} : m.lowestFree i n = some id ↔
    (i ≤ id ∧ id < i + n) ∧ m.mapped id = false ∧ ∀ j, i ≤ j → j < id → m.mapped j = true := by
  induction n generalizing i with
  | zero =>
    simp only [Memory.lowestFree]
    constructor
    · simp
    · rintro ⟨⟨h1, h2⟩, -⟩
      omega
  | succ n ih =>
    unfold Memory.lowestFree
    by_cases h : m.mapped i = true
    · rw [if_pos h, ih]
      constructor
      · rintro ⟨⟨h1, h2⟩, h3, h4⟩
        refine ⟨⟨by omega, by omega⟩, h3, fun j hj hlt => ?_⟩
        rcases Nat.eq_or_lt_of_le hj with rfl | hj
        · exact h
        · exact h4 j hj hlt
      · rintro ⟨⟨h1, h2⟩, h3, h4⟩
        have hne : i ≠ id := fun he => by simp [he, h3] at h
        exact ⟨⟨by omega, by omega⟩, h3, fun j hj hlt => h4 j (by omega) hlt⟩
    · rw [if_neg h]
      constructor
      · rintro ⟨⟩
        exact ⟨⟨le_rfl, by omega⟩, by simpa using h, fun j hj hlt => by omega⟩
      · rintro ⟨⟨h1, h2⟩, h3, h4⟩
        rcases Nat.eq_or_lt_of_le h1 with rfl | hlt
        · rfl
        · exact absurd (h4 i le_rfl hlt) h

/-- `lowestFree` answers nothing exactly when every identifier of its range is mapped (R54). -/
theorem Memory.lowestFree_eq_none {m : Memory} {i n : Nat} : m.lowestFree i n = none ↔
    ∀ j, i ≤ j → j < i + n → m.mapped j = true := by
  induction n generalizing i with
  | zero =>
    simp only [Memory.lowestFree, true_iff]
    intro j h1 h2
    omega
  | succ n ih =>
    unfold Memory.lowestFree
    by_cases h : m.mapped i = true
    · rw [if_pos h, ih]
      constructor
      · intro hall j h1 h2
        rcases Nat.eq_or_lt_of_le h1 with rfl | hlt
        · exact h
        · exact hall j hlt (by omega)
      · intro hall j h1 h2
        exact hall j (by omega) (by omega)
    · rw [if_neg h]
      constructor
      · rintro ⟨⟩
      · intro hall
        exact absurd (hall i le_rfl (by omega)) h

/-! ### The canonical form of the Segment Table -/

theorem Memory.wf_iff {p : Params} {m : Memory} : m.wf p = true ↔
    Table.sorted m.slots = true ∧ ∀ e ∈ m.slots, e.1 < p.nseg ∧ e.2.wf p.maxSegWords = true := by
  simp [Memory.wf]

theorem Memory.wf_seg {p : Params} {m : Memory} {id : Nat} {g : Segment} (hm : m.wf p = true) (h : m.seg id = some g) :
    id < p.nseg ∧ g.wf p.maxSegWords = true := (Memory.wf_iff.1 hm).2 _ (Table.mem_of_find h)

theorem Memory.wf_install {p : Params} {m : Memory} {id : Nat} {g : Segment} (hm : m.wf p = true) (hid : id < p.nseg)
    (hg : g.wf p.maxSegWords = true) : (m.install id g).wf p = true := by
  obtain ⟨h1, h2⟩ := Memory.wf_iff.1 hm
  refine Memory.wf_iff.2 ⟨Table.sorted_put id g h1, fun e he => ?_⟩
  rcases Table.mem_put he with rfl | he
  · exact ⟨hid, hg⟩
  · exact h2 e he

theorem Memory.wf_unmap {p : Params} {m : Memory} (id : Nat) (hm : m.wf p = true) : (m.unmap id).wf p = true := by
  obtain ⟨h1, h2⟩ := Memory.wf_iff.1 hm
  exact Memory.wf_iff.2 ⟨Table.sorted_erase id h1, fun e he => h2 e (Table.mem_erase he)⟩

theorem Memory.wf_store {p : Params} {m : Memory} {id off : Nat} (v : Word) (hm : m.wf p = true)
    (h : off < (m.lenOf id).getD 0) : (m.store id off v).wf p = true := by
  unfold Memory.store
  cases hs : m.seg id with
  | none => exact hm
  | some g =>
    obtain ⟨h1, h2⟩ := Memory.wf_seg hm hs
    exact Memory.wf_install hm h1 (Segment.wf_write v h2 (by simpa [Memory.lenOf, hs] using h))

theorem Memory.wf_copyToZero {p : Params} {m : Memory} (id : Nat) (hm : m.wf p = true) (hp : 0 < p.nseg) :
    (m.copyToZero id).wf p = true := by
  unfold Memory.copyToZero
  cases hs : m.seg id with
  | none => exact hm
  | some g => exact Memory.wf_install hm hp (Memory.wf_seg hm hs).2

/-- A table of one slot 0. -/
theorem Memory.wf_single {p : Params} {g : Segment} (hp : 0 < p.nseg) (hg : g.wf p.maxSegWords = true) :
    Memory.wf p { slots := [(0, g)] } = true :=
  Memory.wf_iff.2 ⟨rfl, fun e he => by
    obtain rfl := List.mem_singleton.1 he
    exact ⟨hp, hg⟩⟩

/-- Canonical tables that hold the same segments are equal data. -/
theorem Memory.wf_ext {p : Params} {m n : Memory} (hm : m.wf p = true) (hn : n.wf p = true)
    (h : ∀ id, m.seg id = n.seg id) : m = n := by
  cases m
  cases n
  exact congrArg Memory.mk (Table.sorted_ext (Memory.wf_iff.1 hm).1 (Memory.wf_iff.1 hn).1 h)

/-- Canonical slots of one length that read the same are equal data. -/
theorem Segment.wf_ext {cap : Nat} {g h : Segment} (hg : g.wf cap = true) (hh : h.wf cap = true) (hl : g.len = h.len)
    (hr : ∀ off, g.read off = h.read off) : g = h := by
  obtain ⟨-, hgs, hgv⟩ := Segment.wf_iff.1 hg
  obtain ⟨-, hhs, hhv⟩ := Segment.wf_iff.1 hh
  have hc : g.cells = h.cells := by
    refine Table.sorted_ext hgs hhs fun k => ?_
    have hk := hr k
    unfold Segment.read at hk
    cases h1 : Table.find g.cells k with
    | none =>
      cases h2 : Table.find h.cells k with
      | none => rfl
      | some w => exact absurd (by simpa [h1, h2] using hk.symm) (hhv _ (Table.mem_of_find h2)).2
    | some v =>
      cases h2 : Table.find h.cells k with
      | none => exact absurd (by simpa [h1, h2] using hk) (hgv _ (Table.mem_of_find h1)).2
      | some w => simpa [h1, h2] using hk
  cases g
  cases h
  simp_all

end Sys2Proof.Machine
end

