-- ==== Sys2Proof/Laws/State.lean ====
section
/-! SUPPORT. One lemma per field per update of State, and reading a register after each update. -/

namespace Sys2Proof.Machine

variable (s : State)

/-! ### setX -/

@[simp] theorem State.setX_params (r : Reg) (v : Word) : (s.setX r v).params = s.params := rfl
@[simp] theorem State.setX_regs (r : Reg) (v : Word) : (s.setX r v).regs = s.regs.set r v := rfl
@[simp] theorem State.setX_pc (r : Reg) (v : Word) : (s.setX r v).pc = s.pc := rfl
@[simp] theorem State.setX_engine (r : Reg) (v : Word) : (s.setX r v).engine = s.engine := rfl
@[simp] theorem State.setX_memory (r : Reg) (v : Word) : (s.setX r v).memory = s.memory := rfl
@[simp] theorem State.setX_output (r : Reg) (v : Word) : (s.setX r v).output = s.output := rfl
@[simp] theorem State.setX_inReq (r : Reg) (v : Word) : (s.setX r v).inReq = s.inReq := rfl
@[simp] theorem State.setX_awaitingImage (r : Reg) (v : Word) : (s.setX r v).awaitingImage = s.awaitingImage := rfl
@[simp] theorem State.setX_hostReplies (r : Reg) (v : Word) : (s.setX r v).hostReplies = s.hostReplies := rfl
@[simp] theorem State.setX_polls (r : Reg) (v : Word) : (s.setX r v).polls = s.polls := rfl
@[simp] theorem State.setX_loads (r : Reg) (v : Word) : (s.setX r v).loads = s.loads := rfl

/-! ### setPc -/

@[simp] theorem State.setPc_params (t : Word) : (s.setPc t).params = s.params := rfl
@[simp] theorem State.setPc_regs (t : Word) : (s.setPc t).regs = s.regs := rfl
@[simp] theorem State.setPc_pc (t : Word) : (s.setPc t).pc = t := rfl
@[simp] theorem State.setPc_engine (t : Word) : (s.setPc t).engine = s.engine := rfl
@[simp] theorem State.setPc_memory (t : Word) : (s.setPc t).memory = s.memory := rfl
@[simp] theorem State.setPc_output (t : Word) : (s.setPc t).output = s.output := rfl
@[simp] theorem State.setPc_inReq (t : Word) : (s.setPc t).inReq = s.inReq := rfl
@[simp] theorem State.setPc_awaitingImage (t : Word) : (s.setPc t).awaitingImage = s.awaitingImage := rfl
@[simp] theorem State.setPc_hostReplies (t : Word) : (s.setPc t).hostReplies = s.hostReplies := rfl
@[simp] theorem State.setPc_polls (t : Word) : (s.setPc t).polls = s.polls := rfl
@[simp] theorem State.setPc_loads (t : Word) : (s.setPc t).loads = s.loads := rfl
@[simp] theorem State.setPc_x (t : Word) (q : Reg) : (s.setPc t).x q = s.x q := rfl

/-! ### setMemory -/

@[simp] theorem State.setMemory_params (m : Memory) : (s.setMemory m).params = s.params := rfl
@[simp] theorem State.setMemory_regs (m : Memory) : (s.setMemory m).regs = s.regs := rfl
@[simp] theorem State.setMemory_pc (m : Memory) : (s.setMemory m).pc = s.pc := rfl
@[simp] theorem State.setMemory_engine (m : Memory) : (s.setMemory m).engine = s.engine := rfl
@[simp] theorem State.setMemory_memory (m : Memory) : (s.setMemory m).memory = m := rfl
@[simp] theorem State.setMemory_output (m : Memory) : (s.setMemory m).output = s.output := rfl
@[simp] theorem State.setMemory_inReq (m : Memory) : (s.setMemory m).inReq = s.inReq := rfl
@[simp] theorem State.setMemory_awaitingImage (m : Memory) : (s.setMemory m).awaitingImage = s.awaitingImage := rfl
@[simp] theorem State.setMemory_hostReplies (m : Memory) : (s.setMemory m).hostReplies = s.hostReplies := rfl
@[simp] theorem State.setMemory_polls (m : Memory) : (s.setMemory m).polls = s.polls := rfl
@[simp] theorem State.setMemory_loads (m : Memory) : (s.setMemory m).loads = s.loads := rfl
@[simp] theorem State.setMemory_x (m : Memory) (q : Reg) : (s.setMemory m).x q = s.x q := rfl

/-! ### haltEngine -/

@[simp] theorem State.haltEngine_params : (s.haltEngine).params = s.params := rfl
@[simp] theorem State.haltEngine_regs : (s.haltEngine).regs = s.regs := rfl
@[simp] theorem State.haltEngine_pc : (s.haltEngine).pc = s.pc := rfl
@[simp] theorem State.haltEngine_engine : (s.haltEngine).engine = .halted := rfl
@[simp] theorem State.haltEngine_memory : (s.haltEngine).memory = s.memory := rfl
@[simp] theorem State.haltEngine_output : (s.haltEngine).output = s.output := rfl
@[simp] theorem State.haltEngine_inReq : (s.haltEngine).inReq = s.inReq := rfl
@[simp] theorem State.haltEngine_awaitingImage : (s.haltEngine).awaitingImage = s.awaitingImage := rfl
@[simp] theorem State.haltEngine_hostReplies : (s.haltEngine).hostReplies = s.hostReplies := rfl
@[simp] theorem State.haltEngine_polls : (s.haltEngine).polls = s.polls := rfl
@[simp] theorem State.haltEngine_loads : (s.haltEngine).loads = s.loads := rfl
@[simp] theorem State.haltEngine_x (q : Reg) : (s.haltEngine).x q = s.x q := rfl

/-! ### raise -/

@[simp] theorem State.raise_params (f : FaultCause) : (s.raise f).params = s.params := rfl
@[simp] theorem State.raise_regs (f : FaultCause) : (s.raise f).regs = s.regs := rfl
@[simp] theorem State.raise_pc (f : FaultCause) : (s.raise f).pc = s.pc := rfl
@[simp] theorem State.raise_engine (f : FaultCause) : (s.raise f).engine = .faulted f := rfl
@[simp] theorem State.raise_memory (f : FaultCause) : (s.raise f).memory = s.memory := rfl
@[simp] theorem State.raise_output (f : FaultCause) : (s.raise f).output = s.output := rfl
@[simp] theorem State.raise_inReq (f : FaultCause) : (s.raise f).inReq = s.inReq := rfl
@[simp] theorem State.raise_awaitingImage (f : FaultCause) : (s.raise f).awaitingImage = s.awaitingImage := rfl
@[simp] theorem State.raise_hostReplies (f : FaultCause) : (s.raise f).hostReplies = s.hostReplies := rfl
@[simp] theorem State.raise_polls (f : FaultCause) : (s.raise f).polls = s.polls := rfl
@[simp] theorem State.raise_loads (f : FaultCause) : (s.raise f).loads = s.loads := rfl
@[simp] theorem State.raise_x (f : FaultCause) (q : Reg) : (s.raise f).x q = s.x q := rfl

/-! ### advance -/

@[simp] theorem State.advance_params : (s.advance).params = s.params := rfl
@[simp] theorem State.advance_regs : (s.advance).regs = s.regs := rfl
@[simp] theorem State.advance_pc : (s.advance).pc = s.pc + 1 := rfl
@[simp] theorem State.advance_engine : (s.advance).engine = s.engine := rfl
@[simp] theorem State.advance_memory : (s.advance).memory = s.memory := rfl
@[simp] theorem State.advance_output : (s.advance).output = s.output := rfl
@[simp] theorem State.advance_inReq : (s.advance).inReq = s.inReq := rfl
@[simp] theorem State.advance_awaitingImage : (s.advance).awaitingImage = s.awaitingImage := rfl
@[simp] theorem State.advance_hostReplies : (s.advance).hostReplies = s.hostReplies := rfl
@[simp] theorem State.advance_polls : (s.advance).polls = s.polls := rfl
@[simp] theorem State.advance_loads : (s.advance).loads = s.loads := rfl
@[simp] theorem State.advance_x (q : Reg) : (s.advance).x q = s.x q := rfl

/-! ### answered -/

@[simp] theorem State.answered_params : (s.answered).params = s.params := rfl
@[simp] theorem State.answered_regs : (s.answered).regs = s.regs := rfl
@[simp] theorem State.answered_pc : (s.answered).pc = s.pc := rfl
@[simp] theorem State.answered_engine : (s.answered).engine = s.engine := rfl
@[simp] theorem State.answered_memory : (s.answered).memory = s.memory := rfl
@[simp] theorem State.answered_output : (s.answered).output = s.output := rfl
@[simp] theorem State.answered_inReq : (s.answered).inReq = false := rfl
@[simp] theorem State.answered_awaitingImage : (s.answered).awaitingImage = s.awaitingImage := rfl
@[simp] theorem State.answered_hostReplies : (s.answered).hostReplies = s.hostReplies := rfl
@[simp] theorem State.answered_polls : (s.answered).polls = s.polls := rfl
@[simp] theorem State.answered_loads : (s.answered).loads = s.loads := rfl
@[simp] theorem State.answered_x (q : Reg) : (s.answered).x q = s.x q := rfl

/-! ### await -/

@[simp] theorem State.await_params : (s.await).params = s.params := rfl
@[simp] theorem State.await_regs : (s.await).regs = s.regs := rfl
@[simp] theorem State.await_pc : (s.await).pc = s.pc - 1 := rfl
@[simp] theorem State.await_engine : (s.await).engine = s.engine := rfl
@[simp] theorem State.await_memory : (s.await).memory = s.memory := rfl
@[simp] theorem State.await_output : (s.await).output = s.output := rfl
@[simp] theorem State.await_inReq : (s.await).inReq = true := rfl
@[simp] theorem State.await_awaitingImage : (s.await).awaitingImage = s.awaitingImage := rfl
@[simp] theorem State.await_hostReplies : (s.await).hostReplies = s.hostReplies := rfl
@[simp] theorem State.await_polls : (s.await).polls = s.polls := rfl
@[simp] theorem State.await_loads : (s.await).loads = s.loads := rfl
@[simp] theorem State.await_x (q : Reg) : (s.await).x q = s.x q := rfl

/-! ### takeReply -/

@[simp] theorem State.takeReply_params : (s.takeReply).params = s.params := rfl
@[simp] theorem State.takeReply_regs : (s.takeReply).regs = s.regs := rfl
@[simp] theorem State.takeReply_pc : (s.takeReply).pc = s.pc := rfl
@[simp] theorem State.takeReply_engine : (s.takeReply).engine = s.engine := rfl
@[simp] theorem State.takeReply_memory : (s.takeReply).memory = s.memory := rfl
@[simp] theorem State.takeReply_output : (s.takeReply).output = s.output := rfl
@[simp] theorem State.takeReply_inReq : (s.takeReply).inReq = s.inReq := rfl
@[simp] theorem State.takeReply_awaitingImage : (s.takeReply).awaitingImage = s.awaitingImage := rfl
@[simp] theorem State.takeReply_hostReplies : (s.takeReply).hostReplies = s.hostReplies.tail := rfl
@[simp] theorem State.takeReply_polls : (s.takeReply).polls = if s.hostReplies.isEmpty then s.polls + 1 else s.polls := rfl
@[simp] theorem State.takeReply_loads : (s.takeReply).loads = s.loads := rfl
@[simp] theorem State.takeReply_x (q : Reg) : (s.takeReply).x q = s.x q := rfl

/-! ### hostReset -/

@[simp] theorem State.hostReset_params : (s.hostReset).params = s.params := rfl
@[simp] theorem State.hostReset_regs : (s.hostReset).regs = Vector.replicate 8 0 := rfl
@[simp] theorem State.hostReset_pc : (s.hostReset).pc = 0 := rfl
@[simp] theorem State.hostReset_engine : (s.hostReset).engine = .running := rfl
@[simp] theorem State.hostReset_memory : (s.hostReset).memory = (State.resetWith s.params).memory := rfl
@[simp] theorem State.hostReset_output : (s.hostReset).output = [] := rfl
@[simp] theorem State.hostReset_inReq : (s.hostReset).inReq = false := rfl
@[simp] theorem State.hostReset_awaitingImage : (s.hostReset).awaitingImage = true := rfl
@[simp] theorem State.hostReset_hostReplies : (s.hostReset).hostReplies = s.hostReplies := rfl
@[simp] theorem State.hostReset_polls : (s.hostReset).polls = s.polls := rfl
@[simp] theorem State.hostReset_loads : (s.hostReset).loads = s.loads := rfl

/-! ### Registers -/

theorem State.setX_x (r q : Reg) (v : Word) : (s.setX r v).x q = if q = r then v else s.x q := by
  simp only [State.x, State.setX, Fin.getElem_fin, Vector.getElem_set, Fin.ext_iff, eq_comm]

@[simp] theorem State.setX_x_same (r : Reg) (v : Word) : (s.setX r v).x r = v := by simp [State.setX_x]

theorem State.setX_x_other {r q : Reg} (v : Word) (h : q ≠ r) : (s.setX r v).x q = s.x q := by simp [State.setX_x, h]

@[simp] theorem State.hostReset_x (q : Reg) : s.hostReset.x q = 0 := by
  simp [State.x]

@[simp] theorem State.resetWith_x (p : Params) (q : Reg) : (State.resetWith p).x q = 0 := by
  simp [State.x, State.resetWith]

end Sys2Proof.Machine
end

