-- ==== Sys2Proof/Laws/Ops.lean ====
section
/-! SUPPORT. For each shared operation, what it can answer, said once. -/

namespace Sys2Proof.Machine

variable {s t : State}

/-! ### A check and its fault -/

theorem check_ok {α : Type} {c : Prop} [Decidable c] {e : FaultCause} {a b : α} :
    (if c then Except.ok a else .error e) = .ok b ↔ c ∧ b = a := by
  by_cases h : c
  · simpa [h] using eq_comm
  · simp [h]

theorem check_error {α : Type} {c : Prop} [Decidable c] {e f : FaultCause} {a : α} :
    (if c then Except.ok a else .error e) = .error f ↔ ¬ c ∧ f = e := by
  by_cases h : c
  · simp [h]
  · simpa [h] using eq_comm

/-! ### Validity and bounds -/

theorem State.validId_iff {id : Word} : s.validId id = true ↔
    id.toNat < s.params.nseg ∧ ∃ g, s.memory.seg id.toNat = some g := by
  simp [State.validId, Memory.mapped, Option.isSome_iff_exists]

theorem State.inBounds_iff {id off : Word} : s.inBounds id off = true ↔
    id.toNat < s.params.nseg ∧ ∃ g, s.memory.seg id.toNat = some g ∧ off.toNat < g.len := by
  unfold State.inBounds
  rw [Bool.and_eq_true, State.validId_iff, decide_eq_true_iff]
  constructor
  · rintro ⟨⟨h1, g, h2⟩, h3⟩
    exact ⟨h1, g, h2, by simpa [Memory.lenOf, h2] using h3⟩
  · rintro ⟨h1, g, h2, h3⟩
    exact ⟨⟨h1, g, h2⟩, by simpa [Memory.lenOf, h2] using h3⟩

/-- (id, off) is in bounds exactly when the identifier is below NSEG and the word exists. -/
theorem State.inBounds_iff_word {id off : Word} : s.inBounds id off = true ↔
    id.toNat < s.params.nseg ∧ ∃ v, s.memory.word id.toNat off.toNat = some v := by
  rw [State.inBounds_iff]
  refine and_congr_right fun _ => ?_
  unfold Memory.word
  cases s.memory.seg id.toNat with
  | none => simp
  | some g => by_cases h : off.toNat < g.len <;> simp [h]

/-! ### The segment primitives -/

/-- `SegRead` answers the word where (id, off) is in bounds, and `SegmentFault` elsewhere (R52). -/
theorem State.segRead_ok {id off v : Word} : s.segRead id off = .ok v ↔
    id.toNat < s.params.nseg ∧ s.memory.word id.toNat off.toNat = some v := by
  unfold State.segRead State.index
  by_cases h : s.inBounds id off = true
  · rw [if_pos h]
    obtain ⟨h1, w, h2⟩ := State.inBounds_iff_word.1 h
    simp [h1, h2]
  · rw [if_neg h]
    simp only [reduceCtorEq, false_iff]
    rintro ⟨h1, h2⟩
    exact h (State.inBounds_iff_word.2 ⟨h1, v, h2⟩)

theorem State.segRead_error {id off : Word} {f : FaultCause} : s.segRead id off = .error f ↔
    s.inBounds id off = false ∧ f = .segmentFault := by
  rw [State.segRead, check_error, Bool.not_eq_true]
  rfl

/-- `SegWrite` changes one existing word (R53). -/
theorem State.segWrite_ok {id off v : Word} : s.segWrite id off v = .ok t ↔
    s.inBounds id off = true ∧ t = s.setMemory (s.memory.store id.toNat off.toNat v) := check_ok

theorem State.segWrite_error {id off v : Word} {f : FaultCause} : s.segWrite id off v = .error f ↔
    s.inBounds id off = false ∧ f = .segmentFault := by
  rw [State.segWrite, check_error, Bool.not_eq_true]
  rfl

/-- `SegAlloc` installs a fresh segment at the lowest free identifier (R54). -/
theorem State.segAlloc_ok {n v : Word} : s.segAlloc n = .ok (v, t) ↔
    n.toNat ≤ s.params.maxSegWords ∧ ∃ id, s.memory.lowestFree 1 (s.params.nseg - 1) = some id ∧
      v = BitVec.ofNat 32 id ∧ t = s.setMemory (s.memory.install id (Segment.fresh n.toNat)) := by
  unfold State.segAlloc
  by_cases h : s.params.maxSegWords < n.toNat
  · rw [if_pos h]
    simp only [reduceCtorEq, false_iff]
    rintro ⟨h1, -⟩
    omega
  · rw [if_neg h]
    cases hf : s.memory.lowestFree 1 (s.params.nseg - 1) with
    | none => simp
    | some id => simp [Nat.le_of_not_lt h, eq_comm]

theorem State.segAlloc_error {n : Word} {f : FaultCause} : s.segAlloc n = .error f ↔
    (s.params.maxSegWords < n.toNat ∨ s.memory.lowestFree 1 (s.params.nseg - 1) = none) ∧ f = .resourceExhausted := by
  unfold State.segAlloc
  by_cases h : s.params.maxSegWords < n.toNat
  · simp [h, eq_comm]
  · cases hf : s.memory.lowestFree 1 (s.params.nseg - 1) <;> simp [h, eq_comm]

/-- `SegFree` marks one mapped slot other than 0 unmapped (R55). -/
theorem State.segFree_ok {id : Word} : s.segFree id = .ok t ↔
    id ≠ 0 ∧ s.validId id = true ∧ t = s.setMemory (s.memory.unmap id.toNat) := by
  rw [State.segFree, check_ok, Bool.and_eq_true, decide_eq_true_iff, and_assoc]

theorem State.segFree_error {id : Word} {f : FaultCause} : s.segFree id = .error f ↔
    (id = 0 ∨ s.validId id = false) ∧ f = .invalidSegment := by
  rw [State.segFree, check_error, Bool.and_eq_true, decide_eq_true_iff, not_and_or, not_not, Bool.not_eq_true]

/-- `SegReplaceZero` does nothing for identifier 0 and copies a valid segment to slot 0 (R56). -/
theorem State.segReplaceZero_ok {id : Word} : s.segReplaceZero id = .ok t ↔
    (id = 0 ∧ t = s) ∨ (id ≠ 0 ∧ s.validId id = true ∧ t = s.setMemory (s.memory.copyToZero id.toNat)) := by
  unfold State.segReplaceZero
  by_cases h : id = 0
  · rw [if_pos h]
    simp only [h, Except.ok.injEq, true_and, ne_eq, not_true_eq_false, false_and, or_false]
    exact eq_comm
  · rw [if_neg h, check_ok]
    simp only [h, false_and, ne_eq, not_false_eq_true, true_and, false_or]

theorem State.segReplaceZero_error {id : Word} {f : FaultCause} : s.segReplaceZero id = .error f ↔
    id ≠ 0 ∧ s.validId id = false ∧ f = .segmentFault := by
  unfold State.segReplaceZero
  by_cases h : id = 0
  · rw [if_pos h]
    simp only [reduceCtorEq, h, ne_eq, not_true_eq_false, false_and]
  · rw [if_neg h, check_error, Bool.not_eq_true]
    simp only [ne_eq, h, not_false_eq_true, true_and]

/-! ### The port -/

theorem State.outByte_ok {v : Word} : s.outByte v = .ok t ↔
    v.toNat ≤ 255 ∧ t = { s with output := s.output ++ [v.extractLsb' 0 8] } := by
  unfold State.outByte
  by_cases h : 255 < v.toNat
  · rw [if_pos h]
    simp only [reduceCtorEq, false_iff]
    rintro ⟨h1, -⟩
    omega
  · rw [if_neg h]
    simp [Nat.le_of_not_lt h, eq_comm]

theorem State.outByte_error {v : Word} {f : FaultCause} : s.outByte v = .error f ↔ 255 < v.toNat ∧ f = .outOfRange := by
  unfold State.outByte
  by_cases h : 255 < v.toNat <;> simp [h, eq_comm]

/-! ### The end of an instruction -/

/-- `finish` always answers a next state: the one the instruction made, or the one before it with the fault (R232). -/
theorem State.finish_next {r : Except FaultCause State} : s.finish r = .next t ↔
    r = .ok t ∨ ∃ f, r = .error f ∧ t = s.raise f := by
  unfold State.finish
  cases r <;> simp [eq_comm]

@[simp] theorem State.finish_ok (u : State) : s.finish (.ok u) = .next u := rfl

@[simp] theorem State.finish_error (f : FaultCause) : s.finish (.error f) = .next (s.raise f) := rfl

theorem map_ok {α β : Type} {r : Except FaultCause α} {g : α → β} {b : β} : r.map g = .ok b ↔ ∃ a, r = .ok a ∧ g a = b := by
  cases r <;> simp [Except.map]

theorem map_error {α β : Type} {r : Except FaultCause α} {g : α → β} {f : FaultCause} :
    r.map g = .error f ↔ r = .error f := by
  cases r <;> simp [Except.map]

/-! ### Every instruction answers a next state -/

/-- `exec` never stops: every instruction answers a next state, in which a fault is an engine state. -/
theorem exec_next (i : Instr) (s : State) : ∃ t, exec i s = .next t := by
  cases i <;> exact ⟨_, rfl⟩

end Sys2Proof.Machine
end

