-- ==== Sys2Proof/Laws/Boot.lean ====
section
/-! SUPPORT. Reset, the load, fetch and the steps of a machine that runs. -/

namespace Sys2Proof.Machine

variable {s : State}

/-- The memory after reset is canonical, for legal parameters. -/
theorem resetWith_memory_wf {p : Params} (hp : p.legal) : (State.resetWith p).memory.wf p = true :=
  Memory.wf_single hp.1 (Segment.wf_fresh (Nat.zero_le _))

/-- `State.reset`'s memory is canonical. -/
theorem reset_memory_wf : State.reset.memory.wf State.reset.params = true := resetWith_memory_wf (by decide)

/-- The memory after the load of an accepted image is canonical. -/
theorem accepted_memory_wf {p : Params} {img : Image} (hp : p.legal) (h : imageAccepted p img = true) :
    Memory.wf p { slots := [(0, Segment.ofWords img.words)] } = true := by
  unfold imageAccepted at h
  rw [Bool.and_eq_true, decide_eq_true_iff, decide_eq_true_iff] at h
  exact Memory.wf_single hp.1 (Segment.wf_ofWords h.2)

theorem refusedLen_le (p : Params) (k : Nat) (img : Image) : refusedLen p k img ≤ p.maxSegWords := by
  unfold refusedLen
  split
  · assumption
  · exact Nat.min_le_right _ _

/-- The memory after a refused image is canonical, whatever the free values are. -/
theorem refused_memory_wf {p : Params} (k : Nat) (img : Image) (hp : p.legal) :
    Memory.wf p { slots := [(0, refusedSegment p k img)] } = true :=
  Memory.wf_single hp.1 (Segment.wf_ofWords (by simpa using refusedLen_le p k img))

/-- The load of an accepted image, and of a refused one. -/
theorem State.load_accepted {img : Image} (h : imageAccepted s.params img = true) : s.load img =
    { s.hostReset with awaitingImage := false, memory := { slots := [(0, Segment.ofWords img.words)] } } := if_pos h

theorem State.load_refused {img : Image} (h : imageAccepted s.params img = false) : s.load img =
    { s.hostReset with
      awaitingImage := false
      memory := { slots := [(0, refusedSegment s.params s.loads img)] }
      engine := .faulted .invalidProgram } := if_neg (by simp [h])

/-! ### Steps -/

/-- A running engine with its image loaded and a word at its pc runs the decoded instruction. -/
theorem step_fetched (h1 : s.engine = .running) (h2 : s.awaitingImage = false) {w : Word} (h : s.fetch = .ok w) :
    step s = exec (decode w) s.advance := by
  simp only [step, h1, h2, h]

/-- A running engine with its image loaded and no word at its pc takes the fetch fault. -/
theorem step_not_fetched (h1 : s.engine = .running) (h2 : s.awaitingImage = false) {f : FaultCause}
    (h : s.fetch = .error f) : step s = .next (s.raise f) := by
  simp only [step, h1, h2, h]

/-- A fetch reads the word at (segment 0, pc). -/
theorem State.fetch_ok {w : Word} : s.fetch = .ok w ↔ 0 < s.params.nseg ∧ s.memory.word 0 s.pc.toNat = some w :=
  State.segRead_ok

theorem State.fetch_error {f : FaultCause} : s.fetch = .error f ↔
    (s.params.nseg = 0 ∨ s.memory.word 0 s.pc.toNat = none) ∧ f = .segmentFault := by
  unfold State.fetch
  rw [State.segRead_error, ← Bool.not_eq_true, State.inBounds_iff_word]
  refine and_congr_left fun _ => ?_
  cases h : s.memory.word 0 s.pc.toNat <;> simp [h]

/-- What `State.runs` says of the step. -/
theorem step_runs {w : Word} (h : s.runs w) : step s = exec (decode w) s.advance :=
  step_fetched h.1 h.2.1 (State.fetch_ok.2 ⟨h.2.2.1, h.2.2.2⟩)

/-- A block that waits for its image steps by asking for it. -/
theorem step_awaiting (h1 : s.engine = .running) (h2 : s.awaitingImage = true) : step s = .next s.pollImage := by
  simp only [step, h1, h2]

theorem step_halted (h : s.engine = .halted) : step s = .fault .engineHalted := by
  simp only [step, h]

theorem step_faulted {f : FaultCause} (h : s.engine = .faulted f) : step s = .fault (.engineFaulted f) := by
  simp only [step, h]

end Sys2Proof.Machine
end

