-- ==== Sys2Proof/Laws/Decode.lean ====
section
/-! SUPPORT. The bits and the fields of an encoded word. -/

namespace Sys2Proof

/-- The bits of a register index beyond its three are 0. -/
theorem Reg.testBit_eq_false (r : Reg) {i : Nat} (hi : 3 ≤ i) : r.val.testBit i = false :=
  Nat.testBit_lt_two_pow (lt_of_lt_of_le r.isLt (Nat.pow_le_pow_right (n := 2) (by decide) hi))

/-- The bits at and above 2^k of a value below 2^k are 0. -/
theorem getLsbD_eq_false_of_lt {v : Word} {k i : Nat} (h : v.toNat < 2 ^ k) (hi : k ≤ i) : v.getLsbD i = false := by
  rw [← BitVec.testBit_toNat]
  exact Nat.testBit_lt_two_pow (lt_of_lt_of_le h (Nat.pow_le_pow_right (by decide) hi))

/-- Every bit of a Standard word (R92). -/
theorem getLsbD_encodeStd (op : Nat) (a b c : Reg) {i : Nat} (hi : i < 32) :
    (encodeStd op a b c).getLsbD i =
      (decide (28 ≤ i) && op.testBit (i - 28) || decide (6 ≤ i) && a.val.testBit (i - 6) ||
        decide (3 ≤ i) && b.val.testBit (i - 3) || c.val.testBit i) := by
  have h1 : i - 28 < 32 := by omega
  have h2 : i - 6 < 32 := by omega
  have h3 : i - 3 < 32 := by omega
  simp only [encodeStd, BitVec.getLsbD_or, BitVec.getLsbD_shiftLeft, BitVec.getLsbD_ofNat, hi, h1, h2, h3,
    decide_true, Bool.true_and, ← decide_not, Nat.not_lt]

/-- Every bit of an Immediate word (R93). -/
theorem getLsbD_encodeLimm (a : Reg) (imm : Word) {i : Nat} (hi : i < 32) :
    (encodeLimm a imm).getLsbD i =
      (decide (28 ≤ i) && Nat.testBit 13 (i - 28) || decide (25 ≤ i) && a.val.testBit (i - 25) || imm.getLsbD i) := by
  have h1 : i - 28 < 32 := by omega
  have h2 : i - 25 < 32 := by omega
  simp only [encodeLimm, BitVec.getLsbD_or, BitVec.getLsbD_shiftLeft, BitVec.getLsbD_ofNat, hi, h1, h2,
    decide_true, Bool.true_and, ← decide_not, Nat.not_lt]

/-- The opcode field of a Standard word is the opcode: the register fields end below it (R91, R92). -/
theorem opField_encodeStd (op : Nat) (a b c : Reg) : opField (encodeStd op a b c) = BitVec.ofNat 4 op := by
  ext i hi
  rw [opField, BitVec.getElem_extractLsb', getLsbD_encodeStd op a b c (by omega),
    a.testBit_eq_false (by omega), b.testBit_eq_false (by omega), c.testBit_eq_false (by omega),
    ← BitVec.getLsbD_eq_getElem, BitVec.getLsbD_ofNat]
  simp [hi]

/-- Field A of a Standard word (R92). -/
theorem regField_encodeStd_A (op : Nat) (a b c : Reg) : regField (encodeStd op a b c) 6 = a := by
  have h : (encodeStd op a b c).extractLsb' 6 3 = BitVec.ofFin a := by
    ext i hi
    rw [BitVec.getElem_extractLsb', getLsbD_encodeStd op a b c (by omega), b.testBit_eq_false (by omega),
      c.testBit_eq_false (by omega)]
    simp [show ¬ 28 ≤ 6 + i by omega]
  rw [regField, h]

/-- Field B of a Standard word (R92). -/
theorem regField_encodeStd_B (op : Nat) (a b c : Reg) : regField (encodeStd op a b c) 3 = b := by
  have h : (encodeStd op a b c).extractLsb' 3 3 = BitVec.ofFin b := by
    ext i hi
    rw [BitVec.getElem_extractLsb', getLsbD_encodeStd op a b c (by omega), c.testBit_eq_false (by omega)]
    simp [show ¬ 28 ≤ 3 + i by omega, show ¬ 6 ≤ 3 + i by omega]
  rw [regField, h]

/-- Field C of a Standard word (R92). -/
theorem regField_encodeStd_C (op : Nat) (a b c : Reg) : regField (encodeStd op a b c) 0 = c := by
  have h : (encodeStd op a b c).extractLsb' 0 3 = BitVec.ofFin c := by
    ext i hi
    rw [BitVec.getElem_extractLsb', getLsbD_encodeStd op a b c (by omega)]
    simp [show ¬ 28 ≤ i by omega, show ¬ 6 ≤ i by omega, show ¬ 3 ≤ i by omega]
  rw [regField, h]

/-- The opcode field of an Immediate word is 13 (R93). -/
theorem opField_encodeLimm (a : Reg) (imm : Word) (h : imm.toNat < 2 ^ 25) :
    opField (encodeLimm a imm) = BitVec.ofNat 4 13 := by
  ext i hi
  rw [opField, BitVec.getElem_extractLsb', getLsbD_encodeLimm a imm (by omega), a.testBit_eq_false (by omega),
    getLsbD_eq_false_of_lt h (by omega), ← BitVec.getLsbD_eq_getElem, BitVec.getLsbD_ofNat]
  simp [hi]

/-- Field A of an Immediate word (R93). -/
theorem regField_encodeLimm (a : Reg) (imm : Word) (h : imm.toNat < 2 ^ 25) : regField (encodeLimm a imm) 25 = a := by
  have h : (encodeLimm a imm).extractLsb' 25 3 = BitVec.ofFin a := by
    ext i hi
    rw [BitVec.getElem_extractLsb', getLsbD_encodeLimm a imm (by omega), getLsbD_eq_false_of_lt h (by omega)]
    simp [show ¬ 28 ≤ 25 + i by omega]
  rw [regField, h]

/-- The immediate of an Immediate word (R93, R94). -/
theorem immField_encodeLimm (a : Reg) (imm : Word) (h : imm.toNat < 2 ^ 25) : immField (encodeLimm a imm) = imm := by
  ext i hi
  rw [immField, BitVec.getElem_setWidth, BitVec.getLsbD_extractLsb', Nat.zero_add,
    getLsbD_encodeLimm a imm hi, ← BitVec.getLsbD_eq_getElem]
  by_cases hi25 : i < 25
  · simp [hi25, show ¬ 28 ≤ i by omega, show ¬ 25 ≤ i by omega]
  · simp [hi25, getLsbD_eq_false_of_lt h (Nat.le_of_not_lt hi25)]

end Sys2Proof
end

