-- ==== Sys2Proof/Laws/Exec.lean ====
section
/-! SUPPORT. What an instruction can do, said once: every next state that `exec` answers is one of these. A statement about
all instructions is proved by cases on `Effect`, without unfolding a meaning. -/

namespace Sys2Proof.Machine

/-- The effects an instruction can have on the state `s` after the fetch advance. -/
inductive Effect (s : State) : Instr → State → Prop
  /-- the instruction's own check failed -/
  | raises {i : Instr} {f : FaultCause} (h : ownFault i = some f) : Effect s i (s.raise f)
  /-- CMOV with a false condition -/
  | skips {a b c : Reg} (h : s.x c = 0) : Effect s (.cmov a b c) s
  /-- one register written, and nothing else -/
  | writes {i : Instr} {d : Reg} {v : Word} (h : i.dest = some d) (hi : isInp i = false) : Effect s i (s.setX d v)
  | halts : Effect s .halt s.haltEngine
  | stores {a b c : Reg} (h : s.inBounds (s.x a) (s.x b) = true) :
      Effect s (.sstore a b c) (s.setMemory (s.memory.store (s.x a).toNat (s.x b).toNat (s.x c)))
  | maps {b c : Reg} {id : Nat} (h : (s.x c).toNat ≤ s.params.maxSegWords)
      (hid : s.memory.lowestFree 1 (s.params.nseg - 1) = some id) :
      Effect s (.map b c)
        ((s.setMemory (s.memory.install id (Segment.fresh (s.x c).toNat))).setX b (BitVec.ofNat 32 id))
  | unmaps {c : Reg} (h0 : s.x c ≠ 0) (h : s.validId (s.x c) = true) :
      Effect s (.unmap c) (s.setMemory (s.memory.unmap (s.x c).toNat))
  | emits {c : Reg} (h : (s.x c).toNat ≤ 255) :
      Effect s (.out c) { s with output := s.output ++ [(s.x c).extractLsb' 0 8] }
  /-- IN completes -/
  | answers {c : Reg} {a : Answer} (h : s.hostAnswer = some a) :
      Effect s (.inp c) (s.takeReply.answered.setX c (answerWord a))
  /-- IN waits -/
  | waits {c : Reg} (h : s.hostAnswer = none) : Effect s (.inp c) s.takeReply.await
  /-- LOADPROG of identifier 0 -/
  | jumps {b c : Reg} (h : s.x b = 0) : Effect s (.loadprog b c) (s.setPc (s.x c))
  /-- LOADPROG of another identifier -/
  | replaces {b c : Reg} (h0 : s.x b ≠ 0) (h : s.validId (s.x b) = true) :
      Effect s (.loadprog b c) ((s.setMemory (s.memory.copyToZero (s.x b).toNat)).setPc (s.x c))

/-- An instruction that ends by `finish` has an effect when its success and its fault have one. -/
theorem effect_finish {s t : State} {i : Instr} {r : Except FaultCause State} (h : s.finish r = .next t)
    (hok : ∀ u, r = .ok u → Effect s i u) (herr : ∀ f, r = .error f → ownFault i = some f) : Effect s i t := by
  rcases State.finish_next.1 h with hr | ⟨f, hr, rfl⟩
  · exact hok t hr
  · exact .raises (herr f hr)

/-- Every next state that `exec` answers is one of the effects. -/
theorem exec_effect {i : Instr} {s t : State} (h : exec i s = .next t) : Effect s i t := by
  cases i with
  | cmov a b c =>
    cases h
    by_cases hc : s.x c = 0
    · simpa [conditionHolds, hc] using Effect.skips hc
    · rw [if_pos (show conditionHolds (s.x c) = true from decide_eq_true hc)]
      exact .writes rfl rfl
  | sload a b c =>
    refine effect_finish h (fun u hu => ?_) (fun f hf => ?_)
    · obtain ⟨v, -, rfl⟩ := map_ok.1 hu
      exact .writes rfl rfl
    · rw [(State.segRead_error.1 (map_error.1 hf)).2]
      rfl
  | sstore a b c =>
    refine effect_finish h (fun u hu => ?_) (fun f hf => ?_)
    · obtain ⟨hb, rfl⟩ := State.segWrite_ok.1 hu
      exact .stores hb
    · rw [(State.segWrite_error.1 hf).2]
      rfl
  | add a b c =>
    cases h
    exact .writes rfl rfl
  | mul a b c =>
    cases h
    exact .writes rfl rfl
  | div a b c =>
    refine effect_finish h (fun u hu => ?_) (fun f hf => ?_)
    · obtain ⟨v, -, rfl⟩ := map_ok.1 hu
      exact .writes rfl rfl
    · have hq := map_error.1 hf
      unfold quotient at hq
      split at hq
      · cases hq
        rfl
      · cases hq
  | nand a b c =>
    cases h
    exact .writes rfl rfl
  | halt =>
    cases h
    exact .halts
  | map b c =>
    refine effect_finish h (fun u hu => ?_) (fun f hf => ?_)
    · obtain ⟨⟨v, w⟩, hv, rfl⟩ := map_ok.1 hu
      obtain ⟨hc, id, hid, rfl, rfl⟩ := State.segAlloc_ok.1 hv
      exact .maps hc hid
    · rw [(State.segAlloc_error.1 (map_error.1 hf)).2]
      rfl
  | unmap c =>
    refine effect_finish h (fun u hu => ?_) (fun f hf => ?_)
    · obtain ⟨h0, hv, rfl⟩ := State.segFree_ok.1 hu
      exact .unmaps h0 hv
    · rw [(State.segFree_error.1 hf).2]
      rfl
  | out c =>
    refine effect_finish h (fun u hu => ?_) (fun f hf => ?_)
    · obtain ⟨hv, rfl⟩ := State.outByte_ok.1 hu
      exact .emits hv
    · rw [(State.outByte_error.1 hf).2]
      rfl
  | inp c =>
    simp only [exec, execInp, Host.Outcome.next.injEq] at h
    split at h
    · rename_i a ha
      subst h
      exact .answers ha
    · rename_i ha
      subst h
      exact .waits ha
  | loadprog b c =>
    refine effect_finish h (fun u hu => ?_) (fun f hf => ?_)
    · obtain ⟨w, hw, rfl⟩ := map_ok.1 hu
      rcases State.segReplaceZero_ok.1 hw with ⟨h0, rfl⟩ | ⟨h0, hv, rfl⟩
      · exact .jumps h0
      · exact .replaces h0 hv
    · rw [(State.segReplaceZero_error.1 (map_error.1 hf)).2.2]
      rfl
  | limm a imm =>
    cases h
    exact .writes rfl rfl
  | illegal14 =>
    cases h
    exact .raises rfl
  | illegal15 =>
    cases h
    exact .raises rfl

end Sys2Proof.Machine
end

