-- ==== Sys2Proof/Laws/PerInstr.lean ====
section
/-! SUPPORT. Facts about each instruction as syntax, one lemma per constructor. -/

namespace Sys2Proof.Laws

/-- The opcode field of an instruction's word is its opcode number (spec/30_encoding.md R91, R98). -/
def OpcodeField.Statement (i : Instr) : Prop := i.wf = true → opField (encode i) = BitVec.ofNat 4 i.opcode

theorem OpcodeField.cmov (a b c : Reg) : OpcodeField.Statement (.cmov a b c) := fun _ => opField_encodeStd 0 a b c
theorem OpcodeField.sload (a b c : Reg) : OpcodeField.Statement (.sload a b c) := fun _ => opField_encodeStd 1 a b c
theorem OpcodeField.sstore (a b c : Reg) : OpcodeField.Statement (.sstore a b c) := fun _ => opField_encodeStd 2 a b c
theorem OpcodeField.add (a b c : Reg) : OpcodeField.Statement (.add a b c) := fun _ => opField_encodeStd 3 a b c
theorem OpcodeField.mul (a b c : Reg) : OpcodeField.Statement (.mul a b c) := fun _ => opField_encodeStd 4 a b c
theorem OpcodeField.div (a b c : Reg) : OpcodeField.Statement (.div a b c) := fun _ => opField_encodeStd 5 a b c
theorem OpcodeField.nand (a b c : Reg) : OpcodeField.Statement (.nand a b c) := fun _ => opField_encodeStd 6 a b c
theorem OpcodeField.halt : OpcodeField.Statement .halt := fun _ => opField_encodeStd 7 0 0 0
theorem OpcodeField.map (b c : Reg) : OpcodeField.Statement (.map b c) := fun _ => opField_encodeStd 8 0 b c
theorem OpcodeField.unmap (c : Reg) : OpcodeField.Statement (.unmap c) := fun _ => opField_encodeStd 9 0 0 c
theorem OpcodeField.out (c : Reg) : OpcodeField.Statement (.out c) := fun _ => opField_encodeStd 10 0 0 c
theorem OpcodeField.inp (c : Reg) : OpcodeField.Statement (.inp c) := fun _ => opField_encodeStd 11 0 0 c
theorem OpcodeField.loadprog (b c : Reg) : OpcodeField.Statement (.loadprog b c) := fun _ => opField_encodeStd 12 0 b c
theorem OpcodeField.limm (a : Reg) (imm : Word) : OpcodeField.Statement (.limm a imm) :=
  fun h => opField_encodeLimm a imm (by simpa [Instr.wf] using h)
theorem OpcodeField.illegal14 : OpcodeField.Statement .illegal14 := fun _ => opField_encodeStd 14 0 0 0
theorem OpcodeField.illegal15 : OpcodeField.Statement .illegal15 := fun _ => opField_encodeStd 15 0 0 0

end Sys2Proof.Laws
end

