-- ==== Sys2Proof/Tests/Slice0.lean ====
section
/-! SUPPORT. Tests. Expected values come from spec/95_test_vectors.md (the vector's id stands beside the test) or from the
encoding tables of spec/30_encoding.md. The theorems named `witness_…` give a concrete state that meets the hypotheses of
the statement of that name in Certificates/Slice0/Obligations.lean. -/

namespace Sys2Proof.Tests

open Sys2Proof Sys2Proof.Machine

/-! ### Helpers -/

/-- The next state, where there is one. -/
def nextOf : Result → Option State
  | .next t => some t
  | .fault _ => none
  | .refused _ => none

/-- The reference machine after the load of `image`, with registers as listed. -/
def start (image : List Word) (regs : List (Reg × Word)) : State :=
  regs.foldl (fun s e => s.setX e.1 e.2) (State.reset.load { words := image, marker := .ok })

/-- `start`, with slot 1 holding `ws`. -/
def start1 (image : List Word) (ws : List Word) (regs : List (Reg × Word)) : State :=
  let s := start image regs
  s.setMemory (s.memory.install 1 (Segment.ofWords ws))

/-- The state after one step. -/
def one (s : State) : Option State := nextOf (step s)

/-- The state after two steps. -/
def two (s : State) : Option State := (one s).bind one

/-! ### Well-formed terms -/

theorem test_wf_refuses_wide_immediate : (Instr.limm 0 0x02000000).wf = false := by decide
theorem test_wf_takes_largest_immediate : (Instr.limm 7 0x01FFFFFF).wf = true := by decide

/-! ### Decoding: words written out from R92, R93 and R98, field by field -/

/-- op 0000, 19 unused bits, A 001, B 010, C 011 -/
theorem test_decode_cmov : decode 0b0000_0000000000000000000_001_010_011 = .cmov 1 2 3 := by decide
/-- vector C6: unused bits set -/
theorem test_decode_cmov_unused : decode 0x0ABCDE53 = .cmov 1 2 3 := by decide
theorem test_decode_sload : decode 0b0001_0000000000000000000_101_010_011 = .sload 5 2 3 := by decide
theorem test_decode_sstore : decode 0b0010_0000000000000000000_010_011_100 = .sstore 2 3 4 := by decide
theorem test_decode_add : decode 0b0011_0000000000000000000_000_001_010 = .add 0 1 2 := by decide
theorem test_decode_mul : decode 0b0100_0000000000000000000_011_100_101 = .mul 3 4 5 := by decide
theorem test_decode_div : decode 0b0101_0000000000000000000_000_001_010 = .div 0 1 2 := by decide
theorem test_decode_nand : decode 0b0110_0000000000000000000_111_110_001 = .nand 7 6 1 := by decide
theorem test_decode_halt : decode 0x7FFFFFFF = .halt := by decide
theorem test_decode_map : decode 0b1000_0000000000000000000_000_010_001 = .map 2 1 := by decide
theorem test_decode_map_ignores_A : decode 0b1000_0000000000000000000_111_010_001 = .map 2 1 := by decide
theorem test_decode_unmap : decode 0b1001_0000000000000000000_000_000_010 = .unmap 2 := by decide
theorem test_decode_out : decode 0b1010_0000000000000000000_000_000_011 = .out 3 := by decide
theorem test_decode_inp : decode 0b1011_0000000000000000000_000_000_011 = .inp 3 := by decide
theorem test_decode_loadprog : decode 0b1100_0000000000000000000_000_111_000 = .loadprog 7 0 := by decide
/-- op 1101, A 110 (bits 27:25), imm 1 followed by 24 zeros but for the last bit -/
theorem test_decode_limm : decode 0b1101_110_1000000000000000000000001 = .limm 6 0x01000001 := by decide
theorem test_decode_illegal14 : decode 0xE0000000 = .illegal14 := by decide
theorem test_decode_illegal15 : decode 0xFFFFFFFF = .illegal15 := by decide
/-- R101's own example -/
theorem test_encode_limm : encode (.limm 0 7) = 0xD0000007 := by decide
theorem test_encode_loadprog : encode (.loadprog 7 0) = 0xC0000038 := by decide
theorem test_decode_table_word : decodeTableWord 32 0x10000153 = some (.sload 5 2 3) := by decide
/-- vector E4: big-endian -/
theorem test_decode_bytes : decodeBytes [0x70, 0, 0, 0, 1] = .ok (.halt, [1]) := by rfl
theorem test_decode_bytes_truncated : decodeBytes [0x70, 0, 0] = .error .truncated := by rfl

/-! ### Register instructions -/

/-- C1 -/
theorem test_cmov_true : (one (start [0x00000053] [(1, 5), (2, 9), (3, 1)])).map (fun t => t.x 1) = some 9 := by decide
/-- C2 -/
theorem test_cmov_false : (one (start [0x00000053] [(1, 5), (2, 9), (3, 0)])).map (fun t => t.x 1) = some 5 := by decide
/-- A2 -/
theorem test_add_wraps : (one (start [0x3000000A] [(1, 0xFFFFFFFF), (2, 1)])).map (fun t => (t.x 0, t.pc)) = some (0, 1) := by
  decide
/-- A5 -/
theorem test_add_same_register : (one (start [0x30000049] [(1, 0x40000000)])).map (fun t => t.x 1) = some 0x80000000 := by
  decide
/-- U3 -/
theorem test_mul_low_word : (one (start [0x400000E5] [(4, 0xFFFFFFFF), (5, 0xFFFFFFFF)])).map (fun t => t.x 3) = some 1 := by
  decide
/-- U4 -/
theorem test_mul_shifts : (one (start [0x400000E5] [(4, 0x12345678), (5, 0x10)])).map (fun t => t.x 3) = some 0x23456780 := by
  decide
/-- V5 -/
theorem test_div_unsigned : (one (start [0x5000000A] [(1, 0x80000000), (2, 3)])).map (fun t => t.x 0) = some 0x2AAAAAAA := by
  decide
/-- V7 -/
theorem test_div_by_zero : (one (start [0x5000000A] [(0, 6), (1, 7)])).map (fun t => (t.status, t.x 0, t.pc)) =
    some (0x00000402, 6, 1) := by decide
/-- N3 -/
theorem test_nand : (one (start [0x6000000A] [(1, 0xF0F0F0F0), (2, 0xFF00FF00)])).map (fun t => t.x 0) = some 0x0FFF0FFF := by
  decide
/-- I2 -/
theorem test_limm_largest : (one (start [0xDFFFFFFF] [])).map (fun t => t.x 7) = some 0x01FFFFFF := by decide
/-- I6 -/
theorem test_limm_low_bits : (one (start [0xD0000053] [(1, 5)])).map (fun t => (t.x 0, t.x 1)) = some (0x53, 5) := by decide

/-! ### Segment instructions -/

/-- L1, L2 -/
theorem test_sload_last_word : (one (start1 [0x10000153] [0, 0, 0, 0x01234567] [(2, 1), (3, 3)])).map (fun t => t.x 5) =
    some 0x01234567 := by decide
/-- L3 -/
theorem test_sload_at_length : (one (start1 [0x10000153] [0, 0, 0, 0x01234567] [(2, 1), (3, 4)])).map
    (fun t => (t.engine, t.x 5)) = some (.faulted .segmentFault, 0) := by decide
/-- T1 -/
theorem test_sstore : (one (start1 [0x2000009C] [0, 0, 0, 0] [(2, 1), (3, 3), (4, 0x01234567)])).map
    (fun t => t.memory.word 1 3) = some (some 0x01234567) := by decide
/-- T5: the next fetch executes the stored word -/
theorem test_sstore_seen_by_fetch : (two (start [0x2000009C, 0] [(3, 1), (4, 0x70000000)])).map (fun t => (t.engine, t.pc)) =
    some (.halted, 2) := by decide
/-- M1 -/
theorem test_map : (one (start [0x80000011] [(1, 4)])).map (fun t => (t.x 2, t.memory.lenOf 1, t.memory.word 1 3)) =
    some (1, some 4, some 0) := by decide
/-- M4 -/
theorem test_map_too_long : (one (start [0x80000011] [(1, 0x10001)])).map (fun t => (t.status, t.x 2)) =
    some (0x00000602, 0) := by decide
/-- F1 -/
theorem test_unmap : (one (start1 [0x90000002] [7] [(2, 1)])).map (fun t => (t.memory.lenOf 1, t.x 2)) = some (none, 1) := by
  decide
/-- F3 -/
theorem test_unmap_zero : (one (start [0x90000002] [])).map (fun t => (t.status, t.memory.lenOf 0)) =
    some (0x00000302, some 1) := by decide
/-- P1v -/
theorem test_loadprog_copies : (two (start1 [0xC0000038] [0x70000000] [(7, 1)])).map
    (fun t => (t.engine, t.pc, t.memory.word 1 0)) = some (.halted, 1, some 0x70000000) := by decide
/-- P3v -/
theorem test_loadprog_unmapped : (one (start [0xC0000038] [(7, 2)])).map (fun t => (t.engine, t.pc)) =
    some (.faulted .segmentFault, 1) := by decide

/-! ### Halt, output, input, illegal words, fetch, load -/

/-- H1 -/
theorem test_halt : (one (start [0x70000000] [])).map (fun t => (t.status, t.pc, t.output)) = some (1, 1, []) := by decide
/-- O3 -/
theorem test_out : (one (start [0xA0000003] [(3, 255)])).map (fun t => t.output) = some [255] := by decide
/-- O4 -/
theorem test_out_of_range : (one (start [0xA0000003] [(3, 256)])).map (fun t => (t.status, t.output)) =
    some (0x00000502, []) := by decide
/-- N3i -/
theorem test_in_byte : (one { start [0xB0000003] [] with hostReplies := [some (.byte 255)] }).map (fun t => t.x 3) =
    some 0x000000FF := by decide
/-- N4i -/
theorem test_in_eof : (one { start [0xB0000003] [] with hostReplies := [some .eof] }).map (fun t => t.x 3) =
    some 0xFFFFFFFF := by decide
/-- N5i, then the answer: the wait, and the completion of the same IN -/
theorem test_in_waits : (one { start [0xB0000003] [] with hostReplies := [none] }).map (fun t => (t.status, t.pc)) =
    some (4, 0) := by decide
theorem test_in_wait_ends : (two { start [0xB0000003] [] with hostReplies := [none, some (.byte 65)] }).map
    (fun t => (t.status, t.pc, t.x 3)) = some (0, 1, 65) := by decide
/-- D1v -/
theorem test_illegal14 : (one (start [0xE0000000] [])).map (fun t => (t.status, t.pc)) = some (0x00000102, 1) := by decide
/-- D2v -/
theorem test_illegal15 : (one (start [0xFFFFFFFF] [])).map (fun t => (t.status, t.pc)) = some (0x00000102, 1) := by decide
/-- E1 -/
theorem test_empty_image : (one (start [] [])).map (fun t => (t.status, t.pc)) = some (0x00000202, 0) := by decide
/-- E3 -/
theorem test_odd_image : (imageOfBytes [0xD0, 0, 0, 7, 0x70]).marker = .invalid := by decide
/-- S7 -/
theorem test_image_bytes : (imageOfBytes [0xD0, 0, 0, 7, 0x70, 0, 0, 0]).words = [0xD0000007, 0x70000000] := by decide
/-- S7 -/
theorem test_source_program : (two (start [0xD0000007, 0x70000000] [])).map (fun t => (t.engine, t.x 0, t.pc, t.output)) =
    some (.halted, 7, 2, []) := by decide
/-- The first instruction after reset, placed by the host's interface. -/
theorem test_fetch_word : (one (State.reset.withFetchWord 32 0xD0000007)).map (fun t => (t.x 0, t.pc)) = some (7, 1) := by
  decide

/-! ### Witnesses: a concrete state that meets the hypotheses of each statement -/

/-- A running machine at the word 0x3000000A. -/
def atAdd : State := start [0x3000000A] []

theorem witness_DecodeOfEncodeIsIdentity : (Instr.limm 3 0x1234).wf = true := by decide
theorem witness_DecodeIgnoresUnusedBits : (Instr.map 2 1).wf = true := by decide
theorem witness_StepRunsDecodedInstruction : atAdd.runs 0x3000000A ∧ decode 0x3000000A = .add 0 1 2 := by
  refine ⟨⟨?_, ?_, ?_, ?_⟩, ?_⟩ <;> decide
/-- The boundary: pc equal to the length of segment 0. -/
theorem witness_FetchOutOfBoundsFaults : (atAdd.setPc 1).engine = .running ∧ (atAdd.setPc 1).awaitingImage = false ∧
    (atAdd.setPc 1).memory.word 0 (atAdd.setPc 1).pc.toNat = none := by decide
theorem witness_IllegalWordFaults : (start [0xE0000000] []).runs 0xE0000000 ∧ 14 ≤ (opField 0xE0000000).toNat := by
  refine ⟨⟨?_, ?_, ?_, ?_⟩, ?_⟩ <;> decide
theorem witness_StepsExactlyWhileRunning : atAdd.engine = .running ∧ atAdd.haltEngine.engine = .halted ∧
    (atAdd.raise .outOfRange).engine = .faulted .outOfRange := by decide
theorem witness_ConditionalMove : opField 0x00000053 = 0 ∧ (start [] [(3, 1)]).x 3 ≠ 0 ∧ (start [] []).x 3 = 0 := by decide
theorem witness_AddWraps : opField 0x3000000A = 3 := by decide
theorem witness_MultiplyKeepsLowWord : opField 0x400000E5 = 4 := by decide
theorem witness_DivideIsUnsignedFloor : opField 0x5000000A = 5 ∧ (start [] [(2, 1)]).x 2 ≠ 0 ∧ (start [] []).x 2 = 0 := by
  decide
theorem witness_NandBitwise : opField 0x600001FF = 6 := by decide
theorem witness_LoadImmediateZeroExtends : opField 0xDFFFFFFF = 13 := by decide

/-- Slot 1 of length 4; r1 = 7 (the last identifier), r2 = 1, r3 = 3 (the last offset), r4 = 4 (the length), r5 = 8 (NSEG). -/
def segs : State := start1 [0x70000000] [0, 0, 0, 9] [(1, 7), (2, 1), (3, 3), (4, 4), (5, 8)]

/-- The last word of the slot is in bounds. -/
theorem witness_SegmentLoad_inside : opField 0x10000153 = 1 ∧ (segs.x 2).toNat < segs.params.nseg ∧
    segs.memory.lenOf (segs.x 2).toNat = some 4 ∧ (segs.x 3).toNat < 4 := by decide
/-- The identifier NSEG, an unmapped identifier, and the offset equal to the length. -/
theorem witness_SegmentLoad_outside : segs.params.nseg ≤ (segs.x 5).toNat ∧ segs.memory.lenOf (segs.x 1).toNat = none ∧
    segs.memory.lenOf (segs.x 2).toNat = some 4 ∧ 4 ≤ (segs.x 4).toNat := by decide
/-- Fields A = 2, B = 3 inside, and A = 5, A = 1, B = 4 outside. -/
theorem witness_SegmentStore : opField 0x2000009C = 2 ∧ (segs.x 2).toNat < segs.params.nseg ∧
    segs.memory.lenOf (segs.x 2).toNat = some 4 ∧ (segs.x 3).toNat < 4 ∧ segs.params.nseg ≤ (segs.x 5).toNat ∧
    segs.memory.lenOf (segs.x 1).toNat = none ∧ 4 ≤ (segs.x 4).toNat := by decide
/-- The largest size, and the lowest free identifier above a mapped one. -/
theorem witness_MapTakesLowestFreeSlot_maps : opField 0x80000011 = 8 ∧ segs.params.nseg ≤ 2 ^ 32 ∧
    ((segs.setX 6 0x10000).x 6).toNat ≤ segs.params.maxSegWords ∧ segs.memory.lenOf 2 = none ∧
    (∀ j, 1 ≤ j → j < 2 → segs.memory.lenOf j ≠ none) := by
  refine ⟨?_, ?_, ?_, ?_, ?_⟩
  · decide
  · decide
  · decide
  · decide
  · intro j h1 h2
    obtain rfl : j = 1 := by omega
    decide
/-- One word too many. -/
theorem witness_MapTakesLowestFreeSlot_tooLong : segs.params.maxSegWords < ((segs.setX 6 0x10001).x 6).toNat := by decide
/-- No slot: a machine of one slot. -/
theorem witness_MapTakesLowestFreeSlot_full : ∀ j, 1 ≤ j →
    j < (State.resetWith { nseg := 1, maxSegWords := 4 }).params.nseg →
    (State.resetWith { nseg := 1, maxSegWords := 4 }).memory.lenOf j ≠ none := by
  intro j h1 h2
  have h3 : j < 1 := h2
  omega
theorem witness_UnmapFreesOneSlot : opField 0x90000002 = 9 ∧ segs.x 2 ≠ 0 ∧ (segs.x 2).toNat < segs.params.nseg ∧
    segs.memory.lenOf (segs.x 2).toNat ≠ none ∧ segs.x 0 = 0 ∧ segs.params.nseg ≤ (segs.x 5).toNat ∧
    segs.memory.lenOf (segs.x 1).toNat = none := by decide
theorem witness_LoadProgramCopiesAndJumps : opField 0xC0000038 = 12 ∧ segs.x 0 = 0 ∧ segs.x 2 ≠ 0 ∧
    (segs.x 2).toNat < segs.params.nseg ∧ segs.memory.lenOf (segs.x 2).toNat ≠ none ∧ segs.x 5 ≠ 0 ∧
    segs.params.nseg ≤ (segs.x 5).toNat ∧ segs.x 1 ≠ 0 ∧ segs.memory.lenOf (segs.x 1).toNat = none := by decide
theorem witness_HaltStopsTheEngine : opField 0x7FFFFFFF = 7 := by decide
theorem witness_OutputAppendsOneByte : opField 0xA0000003 = 10 ∧ ((start [] [(3, 255)]).x 3).toNat ≤ 255 ∧
    255 < ((start [] [(3, 256)]).x 3).toNat := by decide
theorem witness_InputCompletesWithAnswer : ({ atAdd with hostReplies := [some (.byte 65), some .eof] } : State).hostReplies =
    some (.byte 65) :: [some .eof] := by rfl
theorem witness_InputTakesAFreeDraw : atAdd.hostReplies = [] := by decide

/-- A machine at an IN that the host has not answered. -/
def atIn : State := { start [0xB0000003] [] with hostReplies := [none, some .eof] }

theorem witness_InputWaitsWithoutChange : atIn.runs 0xB0000003 ∧ decode 0xB0000003 = .inp 3 ∧
    atIn.hostReplies = none :: [some .eof] := by
  refine ⟨⟨?_, ?_, ?_, ?_⟩, ?_, ?_⟩ <;> decide
/-- For the statements about every next state: one instruction that writes a register, one that stores, one that emits, one
that waits. -/
theorem witness_next_states : exec (.add 0 1 2) segs = .next (segs.setX 0 8) ∧
    (nextOf (exec (.sstore 2 3 4) segs)).map (fun t => t.memory.word 1 3) = some (some 4) ∧
    (nextOf (exec (.out 4) segs)).map (fun t => t.output) = some [4] ∧
    (nextOf (exec (.inp 3) atIn)).map (fun t => t.inReq) = some true := by
  refine ⟨rfl, ?_, ?_, ?_⟩ <;> decide
theorem witness_FaultingInstructionChangesNothing : segs.engine = .running ∧
    exec (.div 0 1 0) segs = .next (segs.raise .divisionByZero) ∧
    (segs.raise .divisionByZero).engine = .faulted .divisionByZero := ⟨by decide, rfl, rfl⟩
theorem witness_InstructionHasOneFaultName : segs.engine = .running ∧
    exec (.unmap 5) segs = .next (segs.raise .invalidSegment) ∧
    (segs.raise .invalidSegment).engine = .faulted .invalidSegment := ⟨by decide, rfl, rfl⟩
/-- A fetch fault, and a fault after the fetch. -/
theorem witness_PcAfterAFault_fetch : (atAdd.setPc 1).awaitingImage = false ∧ 0 < (atAdd.setPc 1).params.nseg ∧
    step (atAdd.setPc 1) = .next ((atAdd.setPc 1).raise .segmentFault) ∧
    (atAdd.setPc 1).memory.word 0 (atAdd.setPc 1).pc.toNat = none := ⟨by decide, by decide, rfl, by decide⟩
theorem witness_PcAfterAFault_instruction : (start [0x5000000A] []).awaitingImage = false ∧
    0 < (start [0x5000000A] []).params.nseg ∧
    step (start [0x5000000A] []) = .next ((start [0x5000000A] []).advance.raise .divisionByZero) ∧
    (start [0x5000000A] []).memory.word 0 (start [0x5000000A] []).pc.toNat ≠ none :=
  ⟨by decide, by decide, rfl, by decide⟩
theorem witness_PcAdvancesOrIsLoaded : atAdd.runs 0x3000000A ∧ step atAdd = .next (atAdd.advance.setX 0 0) := by
  refine ⟨⟨?_, ?_, ?_, ?_⟩, rfl⟩ <;> decide
theorem witness_StepKeepsParameters : step atAdd = .next (atAdd.advance.setX 0 0) := rfl
/-- Two states that differ in the record of the host's choices. -/
theorem witness_StepDeterminedByStateAndReply : SameMachine atIn { atIn with polls := 7 } ∧ atIn.awaitingImage = false ∧
    atIn.hostAnswer = ({ atIn with polls := 7 } : State).hostAnswer ∧
    step atIn = .next atIn.advance.takeReply.await := ⟨⟨rfl, rfl, rfl, rfl, rfl, rfl, rfl, rfl⟩, by decide, rfl, rfl⟩
/-- The smallest and the largest legal configuration. -/
theorem witness_InvariantHoldsAfterReset : Params.legal { nseg := 1, maxSegWords := 1 } ∧
    Params.legal { nseg := 2 ^ 32, maxSegWords := 2 ^ 32 - 1 } := by decide
theorem witness_StepKeepsInvariant : segs.inv = true ∧ step segs = .next segs.advance.haltEngine := ⟨by decide, rfl⟩
theorem witness_ReachableStatesMeetInvariant : Params.legal Params.reference ∧ Reachable Params.reference State.reset :=
  ⟨by decide, .start⟩
theorem witness_SegmentTableInvariant : State.reset.segAlloc 3 =
    .ok (1, State.reset.setMemory (State.reset.memory.install 1 (Segment.fresh 3))) := rfl
theorem witness_PcIncrementNeverWraps : segs.inv = true ∧ segs.memory.word 0 segs.pc.toNat = some 0x70000000 := by decide

/-- The same machine while its IN waits, with the host's next reply. -/
def waitingIn (r : Option Answer) : State := { start [0xB0000003] [] with inReq := true, hostReplies := [r] }

theorem witness_WaitEndsOnlyWithTheAnswer_waits : (waitingIn none).inv = true ∧ (waitingIn none).inReq = true ∧
    (waitingIn none).hostAnswer = none ∧ step (waitingIn none) = .next (waitingIn none).advance.takeReply.await :=
  ⟨by decide, rfl, rfl, rfl⟩
theorem witness_WaitEndsOnlyWithTheAnswer_ends : (waitingIn (some .eof)).inv = true ∧
    (waitingIn (some .eof)).hostAnswer = some .eof ∧
    step (waitingIn (some .eof)) = .next ((waitingIn (some .eof)).advance.takeReply.answered.setX 3 0xFFFFFFFF) :=
  ⟨by decide, rfl, rfl⟩
theorem witness_StoreThenReadReturnsTheWord : segs.segWrite 1 3 0 = .ok (segs.setMemory (segs.memory.store 1 3 0)) := rfl
theorem witness_FetchSeesEveryEarlierEffect : segs.segWrite 0 0 5 = .ok (segs.setMemory (segs.memory.store 0 0 5)) ∧
    segs.validId 0 = true ∧ segs.segReplaceZero 1 = .ok (segs.setMemory (segs.memory.copyToZero 1)) := ⟨rfl, rfl, rfl⟩
theorem witness_RemapReturnsSameIdentifierZeroed : segs.params.nseg ≤ 2 ^ 32 ∧
    segs.segAlloc 4 = .ok (2, segs.setMemory (segs.memory.install 2 (Segment.fresh 4))) ∧
    (segs.setMemory (segs.memory.install 2 (Segment.fresh 4))).segWrite 2 0 9 =
      .ok ((segs.setMemory (segs.memory.install 2 (Segment.fresh 4))).setMemory
        ((segs.memory.install 2 (Segment.fresh 4)).store 2 0 9)) := ⟨by decide, rfl, rfl⟩
/-- The identifier NSEG, and an unmapped one. -/
theorem witness_UnmappedIdentifierFaults : segs.params.nseg ≤ (8 : Word).toNat ∧ segs.memory.lenOf (7 : Word).toNat = none ∧
    (7 : Word) ≠ 0 := by decide
theorem witness_ReplacementIsACopy : (1 : Word) ≠ 0 ∧
    segs.segReplaceZero 1 = .ok (segs.setMemory (segs.memory.copyToZero 1)) ∧
    (segs.setMemory (segs.memory.copyToZero 1)).segWrite 0 3 5 =
      .ok ((segs.setMemory (segs.memory.copyToZero 1)).setMemory ((segs.memory.copyToZero 1).store 0 3 5)) ∧
    (segs.setMemory (segs.memory.copyToZero 1)).segWrite 1 3 5 =
      .ok ((segs.setMemory (segs.memory.copyToZero 1)).setMemory ((segs.memory.copyToZero 1).store 1 3 5)) :=
  ⟨by decide, rfl, rfl, rfl⟩
/-- The first word of segment 0 and the last of slot 1. -/
theorem witness_PlacementIsDisjoint : segs.inv = true ∧ (segs.index 0 0).1 = true ∧ (segs.index 1 3).1 = true ∧
    (segs.index 1 3).2 = 65539 := by decide
theorem witness_StatusWordFields : segs.engine = .running ∧ segs.haltEngine.engine = .halted ∧
    (segs.raise .segmentFault).engine = .faulted .segmentFault ∧ (waitingIn none).engine = .running ∧
    (waitingIn none).inReq = true ∧ ∀ f, segs.engine ≠ .faulted f := by
  refine ⟨?_, ?_, ?_, ?_, ?_, ?_⟩
  · decide
  · decide
  · decide
  · decide
  · decide
  · intro f h
    cases h
/-- The boundary: an image as long as the slot. -/
theorem witness_LoadGivesTheInitialState : ({ words := [1, 2], marker := .ok } : Image).marker = .ok ∧
    ({ words := [1, 2], marker := .ok } : Image).words.length ≤
      (State.resetWith { nseg := 1, maxSegWords := 2 }).params.maxSegWords := by decide
/-- An invalid marker, and the boundary: one word too many. -/
theorem witness_InvalidImageFaults : ({ words := [1], marker := .invalid } : Image).marker = .invalid ∧
    (State.resetWith { nseg := 1, maxSegWords := 2 }).params.maxSegWords <
      ({ words := [1, 2, 3], marker := .ok } : Image).words.length := by decide
theorem witness_ImageWordsAreBigEndian : ([1, 2, 3, 4] : List Byte)[4 * 0]? = some 1 ∧
    ([1, 2, 3, 4] : List Byte)[4 * 0 + 3]? = some 4 := by decide
theorem witness_NothingRunsBeforeTheImage : State.reset.engine = .running ∧ State.reset.awaitingImage = true := by decide

end Sys2Proof.Tests
end

/-! PROOFS. What a step can do, and that no step changes the parameters (spec/00_scope.md R9). -/

namespace Sys2Proof.Machine

variable {s t : State} {i : Instr}

/-! ### What a step can do -/

/-- Every next state of `step` comes from a running engine, in one of three ways: the block asks for its image (R261), the
fetch faults (R121), or the fetched word's instruction has its effect on the advanced state (R122, R124). -/
theorem step_next_cases (h : step s = .next t) : s.engine = .running ∧
    ((s.awaitingImage = true ∧ t = s.pollImage) ∨
      (s.awaitingImage = false ∧ ∃ f, s.fetch = .error f ∧ t = s.raise f) ∨
      (s.awaitingImage = false ∧ ∃ w, s.fetch = .ok w ∧ Effect s.advance (decode w) t)) := by
  cases he : s.engine with
  | halted => simp [step_halted he] at h
  | faulted f => simp [step_faulted he] at h
  | running =>
    refine ⟨rfl, ?_⟩
    cases ha : s.awaitingImage with
    | true =>
      rw [step_awaiting he ha] at h
      cases h
      exact .inl ⟨rfl, rfl⟩
    | false =>
      cases hf : s.fetch with
      | error f =>
        rw [step_not_fetched he ha hf] at h
        cases h
        exact .inr (.inl ⟨rfl, f, rfl, rfl⟩)
      | ok w =>
        rw [step_fetched he ha hf] at h
        exact .inr (.inr ⟨rfl, w, rfl, exec_effect h⟩)

/-! ### The parameters -/

/-- The load keeps the parameters, whether it accepts the image or not. -/
@[simp] theorem State.load_params (img : Image) : (s.load img).params = s.params := by
  cases h : imageAccepted s.params img with
  | true => rw [State.load_accepted h, State.hostReset_params]
  | false => rw [State.load_refused h, State.hostReset_params]

/-- Asking for the image keeps the parameters, whether the host has one or not. -/
@[simp] theorem State.pollImage_params : s.pollImage.params = s.params := by
  unfold State.pollImage
  split
  · exact State.load_params _
  · rfl

/-- No effect of an instruction touches the parameters. -/
theorem Effect.params_eq (h : Effect s i t) : t.params = s.params := by
  cases h with
  | raises => exact State.raise_params ..
  | skips => rfl
  | writes => exact State.setX_params ..
  | halts => exact State.haltEngine_params ..
  | stores => exact State.setMemory_params ..
  | maps => rw [State.setX_params, State.setMemory_params]
  | unmaps => exact State.setMemory_params ..
  | emits => rfl
  | answers => rw [State.setX_params, State.answered_params, State.takeReply_params]
  | waits => rw [State.await_params, State.takeReply_params]
  | jumps => exact State.setPc_params ..
  | replaces => rw [State.setPc_params, State.setMemory_params]

/-- A step keeps the parameters. -/
theorem step_params (h : step s = .next t) : t.params = s.params := by
  obtain ⟨-, ⟨-, rfl⟩ | ⟨-, f, -, rfl⟩ | ⟨-, w, -, heff⟩⟩ := step_next_cases h
  · exact State.pollImage_params
  · exact State.raise_params ..
  · rw [heff.params_eq, State.advance_params]

/-- Settles O34, from what a step can do (`step_next_cases`) and the effects of the instructions. -/
theorem stepKeepsParameters : Obligations.StepKeepsParameters := fun _ _ => step_params

end Sys2Proof.Machine

/-! PROOFS. The state (spec/10_state.md): the fields of STATUS (R27), when there is a step (R26), the registers and the pc
an instruction leaves behind (R21, R24), and the invariant of the reachable states (R31, R127). -/

namespace Sys2Proof.Machine

variable {s t : State} {i : Instr} {p : Params} {m : Memory}

/-! ### STATUS: each field is what remains after the fields below it are cut off -/

theorem State.status_stateField (s : State) : s.status.extractLsb' 0 2 = s.engine.stateField :=
  BitVec.extractLsb'_append_eq_right

theorem State.status_waiting (s : State) : s.status.getLsbD 2 = s.waiting := by
  refine BitVec.getLsbD_append.trans (BitVec.getLsbD_append.trans ?_)
  simp

theorem State.status_faultField (s : State) : s.status.extractLsb' 8 4 = s.engine.faultField :=
  (BitVec.extractLsb'_append_eq_of_le (by decide)).trans ((BitVec.extractLsb'_append_eq_of_le (by decide)).trans
    ((BitVec.extractLsb'_append_eq_of_le (by decide)).trans BitVec.extractLsb'_append_eq_right))

theorem State.status_reserved_low (s : State) : s.status.extractLsb' 3 5 = 0 :=
  (BitVec.extractLsb'_append_eq_of_le (by decide)).trans ((BitVec.extractLsb'_append_eq_of_le (by decide)).trans
    BitVec.extractLsb'_append_eq_right)

theorem State.status_reserved_high (s : State) : s.status.extractLsb' 12 20 = 0 :=
  (BitVec.extractLsb'_append_eq_of_le (by decide)).trans ((BitVec.extractLsb'_append_eq_of_le (by decide)).trans
    ((BitVec.extractLsb'_append_eq_of_le (by decide)).trans BitVec.extractLsb'_append_eq_left))

theorem State.waiting_iff : s.waiting = true ↔ s.engine = .running ∧ s.inReq = true := by
  simp [State.waiting]

theorem Engine.faultField_eq_zero {e : Engine} (h : ∀ f, e ≠ .faulted f) : e.faultField = 0 := by
  cases e with
  | running => rfl
  | halted => rfl
  | faulted f => exact absurd rfl (h f)

/-- Settles O48: every field of STATUS by its own lemma. -/
theorem statusWordFields : Obligations.StatusWordFields := by
  intro s
  simp only [State.status_stateField, State.status_waiting, State.status_faultField]
  refine ⟨fun h => ?_, fun h => ?_, fun f h => ?_, State.waiting_iff, Engine.faultField_eq_zero,
    s.status_reserved_low, s.status_reserved_high⟩
  · rw [h]
    rfl
  · rw [h]
    rfl
  · rw [h]
    exact ⟨rfl, rfl⟩

/-! ### When there is a step -/

/-- A running engine steps: it asks for the image, takes the fetch fault, or executes. -/
theorem step_of_running (h : s.engine = .running) : ∃ t, step s = .next t := by
  cases ha : s.awaitingImage with
  | true => exact ⟨_, step_awaiting h ha⟩
  | false =>
    cases hf : s.fetch with
    | error f => exact ⟨_, step_not_fetched h ha hf⟩
    | ok w =>
      rw [step_fetched h ha hf]
      exact exec_next _ _

/-- Settles O9. -/
theorem stepsExactlyWhileRunning : Obligations.StepsExactlyWhileRunning := fun _ =>
  ⟨⟨fun ⟨_, h⟩ => (step_next_cases h).1, step_of_running⟩, step_halted, fun _ => step_faulted⟩

/-! ### The registers and the pc an instruction leaves behind -/

/-- Writing the one register of `d` keeps all the others. -/
theorem RegsKept.setX {d : Reg} (v : Word) (h : RegsKept none s t) : RegsKept (some d) s (t.setX d v) := fun r hr => by
  rw [State.setX_x_other _ v fun hd => hr (congrArg some hd), h r nofun]

/-- An effect writes no register but the instruction's destination (R21). -/
theorem Effect.regsKept (h : Effect s i t) : RegsKept i.dest s t := by
  cases h with
  | raises => exact fun r _ => State.raise_x ..
  | skips => exact fun _ _ => rfl
  | writes hd =>
    rw [hd]
    exact RegsKept.setX _ fun _ _ => rfl
  | halts => exact fun r _ => State.haltEngine_x ..
  | stores => exact fun r _ => State.setMemory_x ..
  | maps => exact RegsKept.setX _ fun r _ => State.setMemory_x ..
  | unmaps => exact fun r _ => State.setMemory_x ..
  | emits => exact fun _ _ => rfl
  | answers => exact RegsKept.setX _ fun r _ => by rw [State.answered_x, State.takeReply_x]
  | waits => exact fun r _ => by rw [State.await_x, State.takeReply_x]
  | jumps => exact fun r _ => State.setPc_x ..
  | replaces => exact fun r _ => by rw [State.setPc_x, State.setMemory_x]

/-- Settles O26, by the effects of the instructions. -/
theorem instructionWritesOnlyItsDestination : Obligations.InstructionWritesOnlyItsDestination := fun _ _ _ h =>
  (exec_effect h).regsKept

/-- An effect keeps the pc of the fetch advance, but for LOADPROG, which loads it (R174), and for an IN that waits, which
takes the advance back (R127). -/
theorem Effect.pc_cases (h : Effect s i t) :
    t.pc = s.pc ∨ (∃ b c, i = .loadprog b c ∧ t.pc = s.x c) ∨ ∃ c, i = .inp c ∧ t.inReq = true ∧ t.pc = s.pc - 1 := by
  cases h with
  | raises => exact .inl (State.raise_pc ..)
  | skips => exact .inl rfl
  | writes => exact .inl (State.setX_pc ..)
  | halts => exact .inl (State.haltEngine_pc ..)
  | stores => exact .inl (State.setMemory_pc ..)
  | maps => exact .inl (by rw [State.setX_pc, State.setMemory_pc])
  | unmaps => exact .inl (State.setMemory_pc ..)
  | emits => exact .inl rfl
  | answers => exact .inl (by rw [State.setX_pc, State.answered_pc, State.takeReply_pc])
  | waits => exact .inr (.inr ⟨_, rfl, State.await_inReq _, by rw [State.await_pc, State.takeReply_pc]⟩)
  | jumps => exact .inr (.inl ⟨_, _, rfl, State.setPc_pc ..⟩)
  | replaces => exact .inr (.inl ⟨_, _, rfl, State.setPc_pc ..⟩)

/-- Settles O33: the pc of each effect on the advanced state. -/
theorem pcAdvancesOrIsLoaded : Obligations.PcAdvancesOrIsLoaded := by
  intro s t w hw h
  rw [step_runs hw] at h
  rcases (exec_effect h).pc_cases with hpc | ⟨b, c, hi, hpc⟩ | ⟨c, hi, hreq, hpc⟩
  · exact .inl hpc
  · exact .inr (.inl ⟨b, c, hi, hpc⟩)
  · refine .inr (.inr ⟨c, hi, hreq, ?_⟩)
    rw [hpc, State.advance_pc, BitVec.add_sub_cancel]

/-! ### The Segment Table's part of the invariant -/

/-- The Segment Table is canonical and within its capacity, and slot 0 is mapped (R31). -/
def Memory.TableInv (p : Params) (m : Memory) : Prop := m.wf p = true ∧ m.mapped 0 = true

theorem Memory.mapped_eq_lenOf_isSome (m : Memory) (id : Nat) : m.mapped id = (m.lenOf id).isSome := by
  simp [Memory.mapped, Memory.lenOf]

/-- Installing a segment unmaps no slot. -/
theorem Memory.mapped_install {j : Nat} (id : Nat) (g : Segment) (h : m.mapped j = true) :
    (m.install id g).mapped j = true := by
  unfold Memory.mapped
  by_cases hj : j = id
  · rw [hj, Memory.install_seg_same]
    rfl
  · rw [Memory.install_seg_other _ _ hj]
    exact h

theorem Memory.TableInv.install {id : Nat} {g : Segment} (h : m.TableInv p) (hid : id < p.nseg)
    (hg : g.wf p.maxSegWords = true) : (m.install id g).TableInv p :=
  ⟨Memory.wf_install h.1 hid hg, Memory.mapped_install id g h.2⟩

theorem Memory.TableInv.store {id off : Nat} (v : Word) (h : m.TableInv p) (hoff : off < (m.lenOf id).getD 0) :
    (m.store id off v).TableInv p := by
  refine ⟨Memory.wf_store v h.1 hoff, ?_⟩
  rw [Memory.mapped_eq_lenOf_isSome, Memory.store_lenOf, ← Memory.mapped_eq_lenOf_isSome]
  exact h.2

/-- Only slot 0 may not be unmapped. -/
theorem Memory.TableInv.unmap {id : Nat} (h : m.TableInv p) (hid : id ≠ 0) : (m.unmap id).TableInv p := by
  refine ⟨Memory.wf_unmap id h.1, ?_⟩
  rw [Memory.mapped, Memory.unmap_seg_other _ hid.symm]
  exact h.2

theorem Memory.TableInv.copyToZero (id : Nat) (hp : p.legal) (h : m.TableInv p) : (m.copyToZero id).TableInv p := by
  refine ⟨Memory.wf_copyToZero id h.1 hp.1, ?_⟩
  cases hs : m.seg id with
  | none => rw [show m.copyToZero id = m by simp [Memory.copyToZero, hs], h.2]
  | some g => rw [Memory.mapped, Memory.copyToZero_seg hs, if_pos rfl, Option.isSome_some]

/-- The identifier `SegAlloc` takes is one of 1..NSEG-1 (R54). -/
theorem Memory.lowestFree_bounds {id : Nat} (h : m.lowestFree 1 (p.nseg - 1) = some id) : 1 ≤ id ∧ id < p.nseg := by
  obtain ⟨⟨hlo, hhi⟩, -⟩ := Memory.lowestFree_eq_some.1 h
  omega

/-- An offset in bounds is below the slot's length. -/
theorem State.inBounds_lt {id off : Word} (h : s.inBounds id off = true) :
    off.toNat < (s.memory.lenOf id.toNat).getD 0 := by
  obtain ⟨-, g, hg, hoff⟩ := State.inBounds_iff.1 h
  simpa [Memory.lenOf, hg] using hoff

/-- Every effect keeps the Segment Table's part of the invariant. -/
theorem Effect.tableInv (h : Effect s i t) (hp : s.params.legal) (hm : s.memory.TableInv s.params) :
    t.memory.TableInv s.params := by
  cases h with
  | raises => exact hm
  | skips => exact hm
  | writes => exact hm
  | halts => exact hm
  | stores hb => exact hm.store _ (State.inBounds_lt hb)
  | maps hc hid => exact hm.install (Memory.lowestFree_bounds hid).2 (Segment.wf_fresh hc)
  | unmaps h0 => exact hm.unmap fun hz => h0 (BitVec.eq_of_toNat_eq hz)
  | emits => exact hm
  | answers => exact hm
  | waits => exact hm
  | jumps => exact hm
  | replaces => exact hm.copyToZero _ hp

/-! ### The pending request's part of the invariant -/

theorem isInp_iff : isInp i = true ↔ ∃ c, i = .inp c := by
  cases i <;> simp [isInp]

/-- No request is pending, or the engine runs with its image loaded and the pc stands at an IN (R127). -/
theorem State.waitsAtInp_iff : s.waitsAtInp = true ↔
    s.inReq = false ∨ (s.engine = .running ∧ s.awaitingImage = false ∧ s.atInp = true) := by
  simp [State.waitsAtInp, and_assoc]

theorem State.waitsAtInp_of_idle (h : s.inReq = false) : s.waitsAtInp = true := State.waitsAtInp_iff.2 (.inl h)

/-- Where the pc stands at a fetched word, it stands at an IN exactly when the word is one. -/
theorem State.atInp_of_fetch {w : Word} (h : s.fetch = .ok w) : s.atInp = isInp (decode w) := by
  simp only [State.atInp, h]

/-- No request is pending where the next step fetches no IN. -/
theorem State.idle_of_waitsAtInp (hw : s.waitsAtInp = true) (h : s.awaitingImage = true ∨ s.atInp = false) :
    s.inReq = false := by
  rcases State.waitsAtInp_iff.1 hw with hidle | ⟨-, ha, hi⟩
  · exact hidle
  · rcases h with h | h
    · cases ha.symm.trans h
    · cases hi.symm.trans h

/-- The fetch reads the parameters, the Segment Table and the pc only. -/
theorem State.fetch_congr (hp : t.params = s.params) (hm : t.memory = s.memory) (hpc : t.pc = s.pc) :
    t.fetch = s.fetch := by
  unfold State.fetch State.segRead State.index State.inBounds State.validId
  rw [hp, hm, hpc]

/-- An IN ends its request with an answer, or waits. -/
theorem Effect.inp_cases {c : Reg} (h : Effect s (.inp c) t) :
    (∃ a, s.hostAnswer = some a ∧ t = s.takeReply.answered.setX c (answerWord a)) ∨
      (s.hostAnswer = none ∧ t = s.takeReply.await) := by
  cases h with
  | raises h => cases h
  | writes _ hi => cases hi
  | answers h => exact .inl ⟨_, h, rfl⟩
  | waits h => exact .inr ⟨h, rfl⟩

/-- No instruction but IN raises or ends a request (R127). -/
theorem Effect.inReq_eq (h : Effect s i t) (hi : isInp i = false) : t.inReq = s.inReq := by
  cases h with
  | raises => exact State.raise_inReq ..
  | skips => rfl
  | writes => exact State.setX_inReq ..
  | halts => exact State.haltEngine_inReq ..
  | stores => exact State.setMemory_inReq ..
  | maps => rw [State.setX_inReq, State.setMemory_inReq]
  | unmaps => exact State.setMemory_inReq ..
  | emits => rfl
  | answers => cases hi
  | waits => cases hi
  | jumps => exact State.setPc_inReq ..
  | replaces => rw [State.setPc_inReq, State.setMemory_inReq]

/-- After the instruction at the pc, a request is pending only at an IN: another instruction finds and leaves none, and an
IN that waits stands at itself again, its fetch advance taken back. -/
theorem Effect.waitsAtInp {w : Word} (h : Effect s.advance (decode w) t) (he : s.engine = .running)
    (ha : s.awaitingImage = false) (hf : s.fetch = .ok w) (hw : s.waitsAtInp = true) : t.waitsAtInp = true := by
  have hat : s.atInp = isInp (decode w) := State.atInp_of_fetch hf
  cases hi : isInp (decode w) with
  | false =>
    refine State.waitsAtInp_of_idle ?_
    rw [h.inReq_eq hi, State.advance_inReq]
    exact State.idle_of_waitsAtInp hw (.inr (hat.trans hi))
  | true =>
    obtain ⟨c, hc⟩ := isInp_iff.1 hi
    rw [hc] at h
    rcases h.inp_cases with ⟨a, -, rfl⟩ | ⟨-, rfl⟩
    · exact State.waitsAtInp_of_idle rfl
    · have hsame : s.advance.takeReply.await.fetch = s.fetch := State.fetch_congr rfl rfl (BitVec.add_sub_cancel _ _)
      exact State.waitsAtInp_iff.2 (.inr ⟨he, ha, (State.atInp_of_fetch (hsame.trans hf)).trans hi⟩)

/-! ### The invariant -/

theorem State.inv_iff : s.inv = true ↔ s.params.legal ∧ s.memory.TableInv s.params ∧ s.waitsAtInp = true := by
  simp only [State.inv, Memory.TableInv, Bool.and_eq_true, decide_eq_true_iff, and_assoc]

/-- The invariant holds after reset. -/
theorem State.resetWith_inv (hp : p.legal) : (State.resetWith p).inv = true :=
  State.inv_iff.2 ⟨hp, ⟨resetWith_memory_wf hp, rfl⟩, rfl⟩

/-- The invariant holds after the host's reset, in any engine state. -/
theorem State.hostReset_inv (hp : s.params.legal) : s.hostReset.inv = true :=
  State.inv_iff.2 ⟨hp, ⟨resetWith_memory_wf hp, rfl⟩, rfl⟩

/-- The invariant holds after the load, whether it accepts the image or not. -/
theorem State.load_inv (img : Image) (hp : s.params.legal) : (s.load img).inv = true := by
  cases h : imageAccepted s.params img with
  | true =>
    rw [State.load_accepted h]
    exact State.inv_iff.2 ⟨hp, ⟨accepted_memory_wf hp h, rfl⟩, rfl⟩
  | false =>
    rw [State.load_refused h]
    exact State.inv_iff.2 ⟨hp, ⟨refused_memory_wf s.loads img hp, rfl⟩, rfl⟩

/-- Asking for the image keeps the invariant: no request is pending while the block waits for its image. -/
theorem State.pollImage_inv (hs : s.inv = true) (ha : s.awaitingImage = true) : s.pollImage.inv = true := by
  obtain ⟨hp, hm, hw⟩ := State.inv_iff.1 hs
  have hidle : s.inReq = false := State.idle_of_waitsAtInp hw (.inl ha)
  unfold State.pollImage
  split
  · exact State.load_inv _ hp
  · exact State.inv_iff.2 ⟨hp, hm, State.waitsAtInp_of_idle hidle⟩

/-- A fetch fault keeps the invariant: no request is pending where there is no IN to fetch. -/
theorem State.raise_inv {f : FaultCause} (hs : s.inv = true) (hf : s.fetch = .error f) : (s.raise f).inv = true := by
  obtain ⟨hp, hm, hw⟩ := State.inv_iff.1 hs
  have hat : s.atInp = false := by simp only [State.atInp, hf]
  have hidle : s.inReq = false := State.idle_of_waitsAtInp hw (.inr hat)
  exact State.inv_iff.2 ⟨hp, hm, State.waitsAtInp_of_idle hidle⟩

/-- Every step keeps the invariant. -/
theorem step_inv (hs : s.inv = true) (h : step s = .next t) : t.inv = true := by
  obtain ⟨he, ⟨ha, rfl⟩ | ⟨-, f, hf, rfl⟩ | ⟨ha, w, hf, heff⟩⟩ := step_next_cases h
  · exact State.pollImage_inv hs ha
  · exact State.raise_inv hs hf
  · obtain ⟨hp, hm, hw⟩ := State.inv_iff.1 hs
    rw [State.inv_iff, step_params h]
    exact ⟨hp, heff.tableInv hp hm, heff.waitsAtInp he ha hf hw⟩

/-- Settles O37, by cases on what a step can do: the Segment Table by `Effect.tableInv`, the request by
`Effect.waitsAtInp`. -/
theorem stepKeepsInvariant : Obligations.StepKeepsInvariant := fun _ _ => step_inv

/-- The invariant and the parameters of every reachable state, by induction on how it is reached. -/
theorem Reachable.inv_and_params (hp : p.legal) (h : Reachable p s) : s.inv = true ∧ s.params = p := by
  induction h with
  | start => exact ⟨State.resetWith_inv hp, rfl⟩
  | step _ hst ih =>
    obtain ⟨hinv, hpar⟩ := ih
    exact ⟨step_inv hinv hst, (step_params hst).trans hpar⟩
  | hostReset _ ih =>
    obtain ⟨-, hpar⟩ := ih
    exact ⟨State.hostReset_inv (hpar ▸ hp), hpar⟩

/-- Settles O38. -/
theorem reachableStatesMeetInvariant : Obligations.ReachableStatesMeetInvariant := fun _ _ =>
  Reachable.inv_and_params

/-! ### What the invariant says of lengths, identifiers and the pc -/

/-- A mapped identifier is below NSEG and its length within MAX_SEG_WORDS (R31). -/
theorem Memory.wf_lenOf {id n : Nat} (hm : m.wf p = true) (h : m.lenOf id = some n) :
    id < p.nseg ∧ n ≤ p.maxSegWords := by
  obtain ⟨g, hg, rfl⟩ := Option.map_eq_some_iff.1 h
  obtain ⟨hid, hwf⟩ := Memory.wf_seg hm hg
  exact ⟨hid, (Segment.wf_iff.1 hwf).1⟩

/-- `SegAlloc` never returns identifier 0 (R54): the slots are so few that no identifier wraps to it. -/
theorem State.segAlloc_ne_zero {n id : Word} (hp : s.params.legal) (h : s.segAlloc n = .ok (id, t)) : id ≠ 0 := by
  obtain ⟨-, k, hk, rfl, -⟩ := State.segAlloc_ok.1 h
  obtain ⟨hlo, hhi⟩ := Memory.lowestFree_bounds hk
  obtain ⟨-, hmax, -⟩ := hp
  intro hz
  have hnat : k % 2 ^ 32 = 0 := by simpa using congrArg BitVec.toNat hz
  omega

/-- Settles O39: the invariant of a reachable state, read off its Segment Table. -/
theorem segmentTableInvariant : Obligations.SegmentTableInvariant := by
  intro p s hp h
  obtain ⟨hinv, rfl⟩ := h.inv_and_params hp
  obtain ⟨-, ⟨hwf, h0⟩, -⟩ := State.inv_iff.1 hinv
  rw [Memory.mapped_eq_lenOf_isSome] at h0
  exact ⟨Option.isSome_iff_exists.1 h0, fun _ _ => Memory.wf_lenOf hwf, State.segFree_error.2 ⟨.inl rfl, rfl⟩,
    fun _ _ _ => State.segAlloc_ne_zero hp⟩

/-- A word that exists lies below MAX_SEG_WORDS (R31). -/
theorem Memory.wf_word_lt {id off : Nat} {w : Word} (hm : m.wf p = true) (h : m.word id off = some w) :
    off < p.maxSegWords := by
  have hoff : off < (m.lenOf id).getD 0 := by simpa [h] using m.word_isSome id off
  cases hl : m.lenOf id with
  | none => simp [hl] at hoff
  | some n =>
    have hn : off < n := by simpa [hl] using hoff
    exact hn.trans_le (Memory.wf_lenOf hm hl).2

/-- Settles O40: the pc is below MAX_SEG_WORDS, which is at most 2^32 - 1. -/
theorem pcIncrementNeverWraps : Obligations.PcIncrementNeverWraps := by
  intro s w hs hw
  obtain ⟨⟨-, -, -, hmax⟩, ⟨hwf, -⟩, -⟩ := State.inv_iff.1 hs
  have hlt : s.pc.toNat < s.params.maxSegWords := Memory.wf_word_lt hwf hw
  have hle : s.pc.toNat + 1 ≤ 2 ^ 32 - 1 := by omega
  refine ⟨hle, ?_⟩
  rw [State.advance_pc, BitVec.toNat_add]
  exact Nat.mod_eq_of_lt (by simp; omega)

end Sys2Proof.Machine

/-! PROOFS. The Segment Table (spec/20_memory.md): which instructions change memory, what a read answers after a store and
after LOADPROG's copy (R52, R53, R56), the checks of an identifier (R51, R59), and the reference placement (R58). -/

namespace Sys2Proof.Machine

variable {s t : State} {i : Instr} {m : Memory}

/-! ### Which instructions change memory -/

theorem MemoryKept.of_memory_eq (h : t.memory = s.memory) : MemoryKept s t :=
  ⟨fun _ => by rw [h], fun _ _ => by rw [h]⟩

/-- An effect keeps the Segment Table as it is, but for those of the four instructions that end in a segment primitive
(R53 to R56). -/
theorem Effect.memory_cases (h : Effect s i t) :
    t.memory = s.memory ∨ (∃ a b c, i = .sstore a b c) ∨ (∃ b c, i = .map b c) ∨ (∃ c, i = .unmap c) ∨
      ∃ b c, i = .loadprog b c := by
  cases h with
  | raises => exact .inl (State.raise_memory ..)
  | skips => exact .inl rfl
  | writes => exact .inl (State.setX_memory ..)
  | halts => exact .inl (State.haltEngine_memory ..)
  | stores => exact .inr (.inl ⟨_, _, _, rfl⟩)
  | maps => exact .inr (.inr (.inl ⟨_, _, rfl⟩))
  | unmaps => exact .inr (.inr (.inr (.inl ⟨_, rfl⟩)))
  | emits => exact .inl rfl
  | answers => exact .inl (by rw [State.setX_memory, State.answered_memory, State.takeReply_memory])
  | waits => exact .inl (by rw [State.await_memory, State.takeReply_memory])
  | jumps => exact .inl (State.setPc_memory ..)
  | replaces => exact .inr (.inr (.inr (.inr ⟨_, _, rfl⟩)))

/-- Settles O27, by the effects of the instructions. -/
theorem onlySegmentInstructionsChangeMemory : Obligations.OnlySegmentInstructionsChangeMemory := fun _ _ _ h =>
  (exec_effect h).memory_cases.imp_left MemoryKept.of_memory_eq

/-! ### Reading: `SegRead` and the fetch see the identifier's check and the word, and nothing else of the state -/

/-- Two reads answer alike, faults included, when both identifiers or neither are below NSEG and the words are the same. -/
theorem State.segRead_congr {j k id off : Word} (hid : j.toNat < t.params.nseg ↔ id.toNat < s.params.nseg)
    (hw : t.memory.word j.toNat k.toNat = s.memory.word id.toNat off.toNat) : t.segRead j k = s.segRead id off := by
  cases h : s.segRead id off with
  | ok v =>
    obtain ⟨hlt, hv⟩ := State.segRead_ok.1 h
    exact State.segRead_ok.2 ⟨hid.2 hlt, hw.trans hv⟩
  | error f =>
    obtain ⟨hb, hf⟩ := State.segRead_error.1 h
    refine State.segRead_error.2 ⟨?_, hf⟩
    rw [← Bool.not_eq_true, State.inBounds_iff_word] at hb ⊢
    rwa [hid, hw]

/-- A fetch at `off` is `SegRead` of (0, off) (R121). -/
@[simp] theorem State.setPc_fetch (t : State) (off : Word) : (t.setPc off).fetch = t.segRead 0 off := rfl

/-! ### Reading after a store -/

theorem State.segWrite_params {id off v : Word} (h : s.segWrite id off v = .ok t) : t.params = s.params := by
  obtain ⟨-, rfl⟩ := State.segWrite_ok.1 h
  exact State.setMemory_params ..

theorem State.segWrite_word_same {id off v : Word} (h : s.segWrite id off v = .ok t) :
    t.memory.word id.toNat off.toNat = some v := by
  obtain ⟨hb, rfl⟩ := State.segWrite_ok.1 h
  exact Memory.store_word_same v (State.inBounds_lt hb)

theorem State.segWrite_word_other {id off v : Word} {j k : Nat} (h : s.segWrite id off v = .ok t)
    (hne : (j, k) ≠ (id.toNat, off.toNat)) : t.memory.word j k = s.memory.word j k := by
  obtain ⟨-, rfl⟩ := State.segWrite_ok.1 h
  exact Memory.store_word_other v hne

/-- The word stored is the word read: the check of the store is the check of the read (R52, R53). -/
theorem State.segRead_of_segWrite {id off v : Word} (h : s.segWrite id off v = .ok t) : t.segRead id off = .ok v := by
  obtain ⟨hlt, -⟩ := State.inBounds_iff.1 (State.segWrite_ok.1 h).1
  exact State.segRead_ok.2 ⟨State.segWrite_params h ▸ hlt, State.segWrite_word_same h⟩

/-- Settles O42. -/
theorem storeThenReadReturnsTheWord : Obligations.StoreThenReadReturnsTheWord := by
  intro s t id off v h
  refine ⟨State.segRead_of_segWrite h, fun j k hne => ?_⟩
  refine State.segRead_congr (by rw [State.segWrite_params h]) (State.segWrite_word_other h fun heq => hne ?_)
  obtain ⟨hj, hk⟩ := Prod.mk.inj heq
  rw [BitVec.eq_of_toNat_eq hj, BitVec.eq_of_toNat_eq hk]

/-! ### Reading after LOADPROG's copy -/

/-- Slot 0 after the copy of a mapped slot reads as that slot (R56). -/
theorem Memory.copyToZero_word_zero {id : Nat} {g : Segment} (h : m.seg id = some g) (k : Nat) :
    (m.copyToZero id).word 0 k = m.word id k := by
  have h0 : (m.copyToZero id).seg 0 = some g := by rw [Memory.copyToZero_seg h, if_pos rfl]
  rw [Memory.word_of_seg h0, Memory.word_of_seg h]

/-- Every slot but 0 reads as before the copy (R56). -/
theorem Memory.copyToZero_word_other {id j : Nat} {g : Segment} (h : m.seg id = some g) (hj : j ≠ 0) (k : Nat) :
    (m.copyToZero id).word j k = m.word j k :=
  Memory.word_congr (by rw [Memory.copyToZero_seg h, if_neg hj]) k

/-- Segment 0 then reads as slot `id` did; for identifier 0 nothing has changed. -/
theorem State.segReplaceZero_word_zero {id : Word} (h : s.segReplaceZero id = .ok t) (k : Nat) :
    t.memory.word 0 k = s.memory.word id.toNat k := by
  rcases State.segReplaceZero_ok.1 h with ⟨rfl, rfl⟩ | ⟨-, hv, rfl⟩
  · rfl
  · obtain ⟨-, g, hg⟩ := State.validId_iff.1 hv
    exact Memory.copyToZero_word_zero hg k

theorem State.segReplaceZero_word_other {id : Word} {j : Nat} (h : s.segReplaceZero id = .ok t) (hj : j ≠ 0) (k : Nat) :
    t.memory.word j k = s.memory.word j k := by
  rcases State.segReplaceZero_ok.1 h with ⟨-, rfl⟩ | ⟨-, hv, rfl⟩
  · rfl
  · obtain ⟨-, g, hg⟩ := State.validId_iff.1 hv
    exact Memory.copyToZero_word_other hg hj k

theorem State.segReplaceZero_params {id : Word} (h : s.segReplaceZero id = .ok t) : t.params = s.params := by
  rcases State.segReplaceZero_ok.1 h with ⟨-, rfl⟩ | ⟨-, -, rfl⟩
  · rfl
  · exact State.setMemory_params ..

/-- An identifier that `SegReplaceZero` accepts is valid where identifier 0 is (R56). -/
theorem State.segReplaceZero_validId {id : Word} (h : s.segReplaceZero id = .ok t) (h0 : s.validId 0 = true) :
    s.validId id = true := by
  rcases State.segReplaceZero_ok.1 h with ⟨rfl, -⟩ | ⟨-, hv, -⟩
  · exact h0
  · exact hv

/-- Settles O43: both fetches are reads of slot 0. -/
theorem fetchSeesEveryEarlierEffect : Obligations.FetchSeesEveryEarlierEffect := by
  refine ⟨fun s t off v h => (t.setPc_fetch off).trans (State.segRead_of_segWrite h), fun s t id off h0 h => ?_⟩
  obtain ⟨hzero, -⟩ := State.validId_iff.1 h0
  obtain ⟨hid, -⟩ := State.validId_iff.1 (State.segReplaceZero_validId h h0)
  rw [State.setPc_fetch]
  refine State.segRead_congr ?_ (State.segReplaceZero_word_zero h _)
  rw [State.segReplaceZero_params h]
  exact iff_of_true hzero hid

/-- Settles O46: a store reaches one slot, and the copy has made slot 0 and slot `id` two slots with the same words. -/
theorem replacementIsACopy : Obligations.ReplacementIsACopy := by
  intro s t u id off v hid h
  have hne : id.toNat ≠ 0 := fun hz => hid (BitVec.eq_of_toNat_eq hz)
  constructor
  · intro hw k
    calc u.memory.word id.toNat k
      _ = t.memory.word id.toNat k := State.segWrite_word_other hw fun heq => hne (Prod.mk.inj heq).1
      _ = s.memory.word id.toNat k := State.segReplaceZero_word_other h hne k
  · intro hw k
    calc u.memory.word 0 k
      _ = t.memory.word 0 k := State.segWrite_word_other hw fun heq => hne (Prod.mk.inj heq).1.symm
      _ = s.memory.word id.toNat k := State.segReplaceZero_word_zero h k

/-! ### The checks of an identifier -/

/-- An identifier is invalid exactly when it is not below NSEG or its slot is unmapped (R51). -/
theorem State.validId_eq_false {id : Word} : s.validId id = false ↔
    s.params.nseg ≤ id.toNat ∨ s.memory.lenOf id.toNat = none := by
  rw [State.validId, Memory.mapped_eq_lenOf_isSome, Bool.and_eq_false_iff, decide_eq_false_iff_not, Nat.not_lt,
    Option.isSome_eq_false_iff, Option.isNone_iff_eq_none]

/-- No offset is in bounds through an invalid identifier (R51). -/
theorem State.inBounds_eq_false {id : Word} (h : s.validId id = false) (off : Word) : s.inBounds id off = false := by
  rw [State.inBounds, h, Bool.false_and]

/-- Settles O45: each primitive faults on an invalid identifier. -/
theorem unmappedIdentifierFaults : Obligations.UnmappedIdentifierFaults := by
  intro s id off v h
  have hv : s.validId id = false := State.validId_eq_false.2 h
  have hb : s.inBounds id off = false := State.inBounds_eq_false hv off
  exact ⟨State.segRead_error.2 ⟨hb, rfl⟩, State.segWrite_error.2 ⟨hb, rfl⟩, State.segFree_error.2 ⟨.inr hv, rfl⟩,
    fun h0 => State.segReplaceZero_error.2 ⟨h0, hv, rfl⟩⟩

/-! ### The reference placement -/

/-- A pair in bounds is a row below NSEG and a column below MAX_SEG_WORDS of the reference placement (R31, R58). -/
theorem State.index_hit_bounds {id off : Word} (hs : s.inv = true) (h : (s.index id off).1 = true) :
    id.toNat < s.params.nseg ∧ off.toNat < s.params.maxSegWords := by
  obtain ⟨-, ⟨hwf, -⟩, -⟩ := State.inv_iff.1 hs
  obtain ⟨hid, w, hw⟩ := State.inBounds_iff_word.1 h
  exact ⟨hid, Memory.wf_word_lt hwf hw⟩

/-- Where the offset is below MAX_SEG_WORDS, the place determines the pair: it is its quotient and its remainder. -/
theorem State.index_div_mod {id off : Word} (h : off.toNat < s.params.maxSegWords) :
    (s.index id off).2 / s.params.maxSegWords = id.toNat ∧ (s.index id off).2 % s.params.maxSegWords = off.toNat :=
  (Nat.div_mod_unique (Nat.zero_lt_of_lt h)).2 ⟨by rw [State.index, Nat.add_comm, Nat.mul_comm], h⟩

/-- Settles O47: a place is a row and a column of NSEG rows of MAX_SEG_WORDS words. -/
theorem placementIsDisjoint : Obligations.PlacementIsDisjoint := by
  intro s id off id' off' hs h h'
  obtain ⟨hid, hoff⟩ := State.index_hit_bounds hs h
  obtain ⟨-, hoff'⟩ := State.index_hit_bounds hs h'
  obtain ⟨hrow, hcol⟩ := State.index_div_mod (id := id) hoff
  obtain ⟨hrow', hcol'⟩ := State.index_div_mod (id := id') hoff'
  constructor
  · rwa [← Nat.div_lt_iff_lt_mul (Nat.zero_lt_of_lt hoff), hrow]
  · intro heq
    rw [heq] at hrow hcol
    exact ⟨BitVec.eq_of_toNat_eq (hrow.symm.trans hrow'), BitVec.eq_of_toNat_eq (hcol.symm.trans hcol')⟩

end Sys2Proof.Machine

/-! PROOFS. The encoding (spec/30_encoding.md): what `decode` answers at each opcode (R98, R100), that a word is its fields
(R92, R93), and from these that `decode` and `encode` are inverse up to the bits an opcode does not use (R96, R97, R101). -/

namespace Sys2Proof

open Machine

variable {v w m : Word} {a b c : Reg} {op lo : Nat}

/-! ### What `decode` answers at each opcode (R98) -/

theorem decode_cmov (h : opField w = 0) : decode w = .cmov (regField w 6) (regField w 3) (regField w 0) := by
  rw [decode, h]; rfl

theorem decode_sload (h : opField w = 1) : decode w = .sload (regField w 6) (regField w 3) (regField w 0) := by
  rw [decode, h]; rfl

theorem decode_sstore (h : opField w = 2) : decode w = .sstore (regField w 6) (regField w 3) (regField w 0) := by
  rw [decode, h]; rfl

theorem decode_add (h : opField w = 3) : decode w = .add (regField w 6) (regField w 3) (regField w 0) := by
  rw [decode, h]; rfl

theorem decode_mul (h : opField w = 4) : decode w = .mul (regField w 6) (regField w 3) (regField w 0) := by
  rw [decode, h]; rfl

theorem decode_div (h : opField w = 5) : decode w = .div (regField w 6) (regField w 3) (regField w 0) := by
  rw [decode, h]; rfl

theorem decode_nand (h : opField w = 6) : decode w = .nand (regField w 6) (regField w 3) (regField w 0) := by
  rw [decode, h]; rfl

theorem decode_halt (h : opField w = 7) : decode w = .halt := by
  rw [decode, h]; rfl

theorem decode_map (h : opField w = 8) : decode w = .map (regField w 3) (regField w 0) := by
  rw [decode, h]; rfl

theorem decode_unmap (h : opField w = 9) : decode w = .unmap (regField w 0) := by
  rw [decode, h]; rfl

theorem decode_out (h : opField w = 10) : decode w = .out (regField w 0) := by
  rw [decode, h]; rfl

theorem decode_inp (h : opField w = 11) : decode w = .inp (regField w 0) := by
  rw [decode, h]; rfl

theorem decode_loadprog (h : opField w = 12) : decode w = .loadprog (regField w 3) (regField w 0) := by
  rw [decode, h]; rfl

theorem decode_limm (h : opField w = 13) : decode w = .limm (regField w 25) (immField w) := by
  rw [decode, h]; rfl

theorem decode_illegal14 (h : opField w = 14) : decode w = .illegal14 := by
  rw [decode, h]; rfl

theorem decode_illegal15 (h : opField w = 15) : decode w = .illegal15 := by
  rw [decode, h]; rfl

/-- The opcode field has four bits (R91). -/
theorem opcode_cases (op : BitVec 4) : op = 0 ∨ op = 1 ∨ op = 2 ∨ op = 3 ∨ op = 4 ∨ op = 5 ∨ op = 6 ∨ op = 7 ∨ op = 8 ∨
    op = 9 ∨ op = 10 ∨ op = 11 ∨ op = 12 ∨ op = 13 ∨ op = 14 ∨ op = 15 := by
  revert op
  decide

/-! ### Decoding an encoded instruction -/

theorem Instr.wf_limm {imm : Word} : (Instr.limm a imm).wf = true ↔ imm.toNat < 2 ^ 25 := decide_eq_true_iff

/-- Settles O2: the opcode field of the instruction's word picks its arm of `decode`, and the fields give the operands. -/
theorem decodeOfEncodeIsIdentity : Obligations.DecodeOfEncodeIsIdentity := by
  intro i hwf
  cases i with
  | cmov a b c =>
    rw [encode, decode_cmov (opField_encodeStd ..), regField_encodeStd_A, regField_encodeStd_B, regField_encodeStd_C]
  | sload a b c =>
    rw [encode, decode_sload (opField_encodeStd ..), regField_encodeStd_A, regField_encodeStd_B, regField_encodeStd_C]
  | sstore a b c =>
    rw [encode, decode_sstore (opField_encodeStd ..), regField_encodeStd_A, regField_encodeStd_B, regField_encodeStd_C]
  | add a b c =>
    rw [encode, decode_add (opField_encodeStd ..), regField_encodeStd_A, regField_encodeStd_B, regField_encodeStd_C]
  | mul a b c =>
    rw [encode, decode_mul (opField_encodeStd ..), regField_encodeStd_A, regField_encodeStd_B, regField_encodeStd_C]
  | div a b c =>
    rw [encode, decode_div (opField_encodeStd ..), regField_encodeStd_A, regField_encodeStd_B, regField_encodeStd_C]
  | nand a b c =>
    rw [encode, decode_nand (opField_encodeStd ..), regField_encodeStd_A, regField_encodeStd_B, regField_encodeStd_C]
  | halt => exact decode_halt (opField_encodeStd ..)
  | map b c => rw [encode, decode_map (opField_encodeStd ..), regField_encodeStd_B, regField_encodeStd_C]
  | unmap c => rw [encode, decode_unmap (opField_encodeStd ..), regField_encodeStd_C]
  | out c => rw [encode, decode_out (opField_encodeStd ..), regField_encodeStd_C]
  | inp c => rw [encode, decode_inp (opField_encodeStd ..), regField_encodeStd_C]
  | loadprog b c => rw [encode, decode_loadprog (opField_encodeStd ..), regField_encodeStd_B, regField_encodeStd_C]
  | limm a imm =>
    have himm := Instr.wf_limm.1 hwf
    rw [encode, decode_limm (opField_encodeLimm a imm himm), regField_encodeLimm a imm himm,
      immField_encodeLimm a imm himm]
  | illegal14 => exact decode_illegal14 (opField_encodeStd ..)
  | illegal15 => exact decode_illegal15 (opField_encodeStd ..)

/-! ### A word is its fields -/

theorem opField_toNat (w : Word) : (opField w).toNat = w.toNat / 2 ^ 28 % 2 ^ 4 := by
  rw [opField, BitVec.extractLsb'_toNat, Nat.shiftRight_eq_div_pow]

theorem regField_val (w : Word) (lo : Nat) : (regField w lo).val = w.toNat / 2 ^ lo % 2 ^ 3 := by
  rw [regField, BitVec.val_toFin, BitVec.extractLsb'_toNat, Nat.shiftRight_eq_div_pow]

theorem immField_toNat (w : Word) : (immField w).toNat = w.toNat % 2 ^ 25 := by
  rw [immField, BitVec.toNat_setWidth_of_le (by decide), BitVec.extractLsb'_toNat, Nat.shiftRight_zero]

/-- The immediate is in its range whatever the word (R94). -/
theorem immField_toNat_lt (w : Word) : (immField w).toNat < 2 ^ 25 := by
  rw [immField_toNat]
  exact Nat.mod_lt _ (by decide)

/-- A Standard word is its opcode, the bits 27:9 and its three register fields (R92). -/
theorem word_ext_standard (hop : opField v = opField w) (hunused : v.extractLsb' 9 19 = w.extractLsb' 9 19)
    (hA : regField v 6 = regField w 6) (hB : regField v 3 = regField w 3) (hC : regField v 0 = regField w 0) : v = w := by
  simp only [← BitVec.toNat_inj, Fin.ext_iff, opField_toNat, regField_val, BitVec.extractLsb'_toNat,
    Nat.shiftRight_eq_div_pow] at *
  omega

/-- An Immediate word is its opcode, its register field and its immediate (R93). -/
theorem word_ext_immediate (hop : opField v = opField w) (hA : regField v 25 = regField w 25)
    (himm : immField v = immField w) : v = w := by
  simp only [← BitVec.toNat_inj, Fin.ext_iff, opField_toNat, regField_val, immField_toNat] at *
  omega

/-- Bits 27:9 of a Standard word are written as 0 (R96, R101). -/
theorem unusedBits_encodeStd (op : Nat) (a b c : Reg) : (encodeStd op a b c).extractLsb' 9 19 = 0#19 := by
  ext i hi
  rw [BitVec.getElem_extractLsb', getLsbD_encodeStd op a b c (by omega), a.testBit_eq_false (by omega),
    b.testBit_eq_false (by omega), c.testBit_eq_false (by omega)]
  simp [show ¬ 28 ≤ 9 + i by omega]

/-- A word whose opcode is 13 is the Immediate word of its fields. -/
theorem encodeLimm_fields (h : opField w = 13) : encodeLimm (regField w 25) (immField w) = w := by
  have himm := immField_toNat_lt w
  refine word_ext_immediate ?_ (regField_encodeLimm _ _ himm) (immField_encodeLimm _ _ himm)
  exact (opField_encodeLimm _ _ himm).trans h.symm

/-! ### Clearing the bits an opcode does not use -/

theorem opField_and (w m : Word) : opField (w &&& m) = opField w &&& opField m := BitVec.extractLsb'_and

/-- Clearing bits outside a register field keeps it. -/
theorem regField_and_of_ones (h : m.extractLsb' lo 3 = BitVec.allOnes 3) : regField (w &&& m) lo = regField w lo := by
  rw [regField, BitVec.extractLsb'_and, h, BitVec.and_allOnes, regField]

/-- Clearing all bits of a register field makes it 0. -/
theorem regField_and_of_zero (h : m.extractLsb' lo 3 = 0#3) : regField (w &&& m) lo = 0 := by
  rw [regField, BitVec.extractLsb'_and, h, BitVec.and_zero]
  rfl

/-- Where `m` keeps the opcode and clears bits 27:9, `w &&& m` is the Standard word of its fields. -/
theorem encodeStd_eq_and (hop : opField w = BitVec.ofNat 4 op) (hm : opField m = BitVec.allOnes 4)
    (hunused : m.extractLsb' 9 19 = 0#19) (hA : regField (w &&& m) 6 = a) (hB : regField (w &&& m) 3 = b)
    (hC : regField (w &&& m) 0 = c) : encodeStd op a b c = w &&& m := by
  refine word_ext_standard ?_ ?_ ((regField_encodeStd_A ..).trans hA.symm) ((regField_encodeStd_B ..).trans hB.symm)
    ((regField_encodeStd_C ..).trans hC.symm)
  · rw [opField_encodeStd, ← hop, opField_and, hm, BitVec.and_allOnes]
  · rw [unusedBits_encodeStd, BitVec.extractLsb'_and, hunused, BitVec.and_zero]

/-- The opcodes that use the fields A, B and C (R97). -/
theorem encodeStd_fields_ABC (h : opField w = BitVec.ofNat 4 op) :
    encodeStd op (regField w 6) (regField w 3) (regField w 0) = w &&& 0xF00001FF :=
  encodeStd_eq_and h (by decide) (by decide) (regField_and_of_ones (by decide)) (regField_and_of_ones (by decide))
    (regField_and_of_ones (by decide))

/-- The opcodes that use the fields B and C (R97). -/
theorem encodeStd_fields_BC (h : opField w = BitVec.ofNat 4 op) :
    encodeStd op 0 (regField w 3) (regField w 0) = w &&& 0xF000003F :=
  encodeStd_eq_and h (by decide) (by decide) (regField_and_of_zero (by decide)) (regField_and_of_ones (by decide))
    (regField_and_of_ones (by decide))

/-- The opcodes that use the field C (R97). -/
theorem encodeStd_fields_C (h : opField w = BitVec.ofNat 4 op) :
    encodeStd op 0 0 (regField w 0) = w &&& 0xF0000007 :=
  encodeStd_eq_and h (by decide) (by decide) (regField_and_of_zero (by decide)) (regField_and_of_zero (by decide))
    (regField_and_of_ones (by decide))

/-- The opcodes that use no field (R97). -/
theorem encodeStd_fields_none (h : opField w = BitVec.ofNat 4 op) : encodeStd op 0 0 0 = w &&& 0xF0000000 :=
  encodeStd_eq_and h (by decide) (by decide) (regField_and_of_zero (by decide)) (regField_and_of_zero (by decide))
    (regField_and_of_zero (by decide))

/-! ### Encoding a decoded word -/

/-- Every word decodes to a well-formed instruction: the immediate alone could be out of range, and it is not (R94). -/
theorem decode_wf (w : Word) : (decode w).wf = true := by
  unfold decode
  split
  case h_14 => exact Instr.wf_limm.2 (immField_toNat_lt w)
  all_goals rfl

/-- The word of a decoded word is its used bits: at each opcode, the fields that `decode` reads are those `usedMask`
keeps. -/
theorem encode_decode (w : Word) : encode (decode w) = w &&& usedMask (opField w) := by
  rcases opcode_cases (opField w) with h | h | h | h | h | h | h | h | h | h | h | h | h | h | h | h
  · rw [decode_cmov h, h]
    exact encodeStd_fields_ABC h
  · rw [decode_sload h, h]
    exact encodeStd_fields_ABC h
  · rw [decode_sstore h, h]
    exact encodeStd_fields_ABC h
  · rw [decode_add h, h]
    exact encodeStd_fields_ABC h
  · rw [decode_mul h, h]
    exact encodeStd_fields_ABC h
  · rw [decode_div h, h]
    exact encodeStd_fields_ABC h
  · rw [decode_nand h, h]
    exact encodeStd_fields_ABC h
  · rw [decode_halt h, h]
    exact encodeStd_fields_none h
  · rw [decode_map h, h]
    exact encodeStd_fields_BC h
  · rw [decode_unmap h, h]
    exact encodeStd_fields_C h
  · rw [decode_out h, h]
    exact encodeStd_fields_C h
  · rw [decode_inp h, h]
    exact encodeStd_fields_C h
  · rw [decode_loadprog h, h]
    exact encodeStd_fields_BC h
  · rw [decode_limm h, h]
    exact (encodeLimm_fields h).trans (BitVec.and_allOnes (x := w)).symm
  · rw [decode_illegal14 h, h]
    exact encodeStd_fields_none h
  · rw [decode_illegal15 h, h]
    exact encodeStd_fields_none h

/-- Settles O3. -/
theorem encodeOfDecodeKeepsUsedBits : Obligations.EncodeOfDecodeKeepsUsedBits := fun w => ⟨decode_wf w, encode_decode w⟩

/-- Settles O4: both parts follow from the two round trips, `decodeOfEncodeIsIdentity` and `encode_decode`. -/
theorem decodeIgnoresUnusedBits : Obligations.DecodeIgnoresUnusedBits := by
  refine ⟨fun w => ?_, fun i hwf => ?_⟩
  · calc decode w
      _ = decode (encode (decode w)) := (decodeOfEncodeIsIdentity _ (decode_wf w)).symm
      _ = decode (w &&& usedMask (opField w)) := by rw [encode_decode]
  · calc encode i &&& usedMask (opField (encode i))
      _ = encode (decode (encode i)) := (encode_decode _).symm
      _ = encode i := by rw [decodeOfEncodeIsIdentity i hwf]

/-- Settles O1: seventeen closed words, each decoded by evaluation. -/
theorem decodedWordsOfEveryFamily : Obligations.DecodedWordsOfEveryFamily := by
  unfold Obligations.DecodedWordsOfEveryFamily
  decide

end Sys2Proof

namespace Sys2Proof.Machine

/-! ### The unassigned opcodes (R99) -/

theorem exec_illegal14 (s : State) : exec .illegal14 s = .next (s.raise .illegalOpcode) := rfl

theorem exec_illegal15 (s : State) : exec .illegal15 s = .next (s.raise .illegalOpcode) := rfl

/-- Taking a fault changes the engine state alone (spec/60_exceptions.md R232). -/
theorem State.raise_faultedOnly (s : State) (f : FaultCause) : FaultedOnly f s (s.raise f) := by
  refine ⟨s.raise_engine f, fun r _ => s.raise_x f r, s.raise_pc f, ?_, ⟨s.raise_output f, s.raise_inReq f⟩,
    s.raise_params f, s.raise_awaitingImage f, s.raise_hostReplies f, s.raise_polls f, s.raise_loads f⟩
  rw [MemoryKept, s.raise_memory f]
  exact ⟨fun _ => rfl, fun _ _ => rfl⟩

/-- Settles O8: both meanings raise the fault (R123), and raising it changes nothing else. -/
theorem illegalInstructionsFault : Obligations.IllegalInstructionsFault := fun s =>
  ⟨⟨_, exec_illegal14 s, s.raise_faultedOnly _⟩, ⟨_, exec_illegal15 s, s.raise_faultedOnly _⟩⟩

end Sys2Proof.Machine

/-! PROOFS. The execution loop (spec/40_execution_loop.md): what one step does (R120 to R123), that a fault is the whole
effect of a faulting instruction (R126), the wait of an IN and its end (R125, R127), and determinism (R130). -/

namespace Sys2Proof.Machine

variable {s t : State} {i : Instr}

/-! ### Determinism (R130): the record of the host's choices reaches the rest of the state only through a reply -/

/-- The machine of `s` with the record of the host's choices of `r`. -/
def State.withRecordOf (s r : State) : State :=
  { s with hostReplies := r.hostReplies, polls := r.polls, loads := r.loads }

theorem sameMachine_iff {u : State} : SameMachine s u ↔ ∃ r, u = s.withRecordOf r := by
  constructor
  · rintro ⟨hparams, hregs, hpc, hengine, hmemory, houtput, hreq, hawaiting⟩
    refine ⟨u, ?_⟩
    rw [State.withRecordOf, hparams, hregs, hpc, hengine, hmemory, houtput, hreq, hawaiting]
  · rintro ⟨r, rfl⟩
    exact ⟨rfl, rfl, rfl, rfl, rfl, rfl, rfl, rfl⟩

@[simp] theorem State.withRecordOf_x (s r : State) (q : Reg) : (s.withRecordOf r).x q = s.x q := rfl

@[simp] theorem State.withRecordOf_fetch (s r : State) : (s.withRecordOf r).fetch = s.fetch := rfl

theorem State.withRecordOf_segWrite (s r : State) (id off v : Word) :
    (s.withRecordOf r).segWrite id off v = (s.segWrite id off v).map (State.withRecordOf · r) := by
  unfold State.segWrite
  rw [apply_ite (Except.map (State.withRecordOf · r))]
  rfl

theorem State.withRecordOf_segFree (s r : State) (id : Word) :
    (s.withRecordOf r).segFree id = (s.segFree id).map (State.withRecordOf · r) := by
  unfold State.segFree
  rw [apply_ite (Except.map (State.withRecordOf · r))]
  rfl

theorem State.withRecordOf_outByte (s r : State) (v : Word) :
    (s.withRecordOf r).outByte v = (s.outByte v).map (State.withRecordOf · r) := by
  unfold State.outByte
  rw [apply_ite (Except.map (State.withRecordOf · r))]
  rfl

theorem State.withRecordOf_segReplaceZero (s r : State) (id : Word) :
    (s.withRecordOf r).segReplaceZero id = (s.segReplaceZero id).map (State.withRecordOf · r) := by
  unfold State.segReplaceZero
  split
  · rfl
  · rw [apply_ite (Except.map (State.withRecordOf · r))]
    rfl

theorem State.withRecordOf_segAlloc (s r : State) (n : Word) :
    (s.withRecordOf r).segAlloc n = (s.segAlloc n).map fun e => (e.1, e.2.withRecordOf r) := by
  cases h : s.segAlloc n with
  | error f =>
    have hfault := State.segAlloc_error.1 h
    exact State.segAlloc_error.2 hfault
  | ok e =>
    obtain ⟨hn, id, hid, hv, ht⟩ := State.segAlloc_ok.1 h
    exact State.segAlloc_ok.2 ⟨hn, id, hid, hv, congrArg (State.withRecordOf · r) ht⟩

/-- The end of an instruction leaves the record as it is, whether the instruction made a state or raised a fault. -/
theorem State.withRecordOf_finish {x y : Except FaultCause State} (r : State) (h : s.finish x = .next t)
    (hy : y = x.map (State.withRecordOf · r)) : (s.withRecordOf r).finish y = .next (t.withRecordOf r) := by
  rcases State.finish_next.1 h with rfl | ⟨f, rfl, rfl⟩
  · rw [hy]
    rfl
  · rw [hy]
    rfl

/-- A state made from what a check answers takes the record along. -/
theorem map_withRecordOf {α : Type} {f g : α → State} (x : Except FaultCause α) (r : State)
    (h : ∀ v, g v = (f v).withRecordOf r) : x.map g = (x.map f).map (State.withRecordOf · r) := by
  cases x with
  | error e => rfl
  | ok v => exact congrArg Except.ok (h v)

/-- No instruction but IN reads the record, and none but IN writes it. -/
theorem exec_withRecordOf (r : State) (hi : isInp i = false) (h : exec i s = .next t) :
    exec i (s.withRecordOf r) = .next (t.withRecordOf r) := by
  cases i with
  | cmov a b c =>
    cases h
    rw [apply_ite (State.withRecordOf · r)]
    rfl
  | sload a b c => exact State.withRecordOf_finish r h (map_withRecordOf (s.segRead _ _) r fun _ => rfl)
  | sstore a b c => exact State.withRecordOf_finish r h (State.withRecordOf_segWrite ..)
  | add a b c => cases h; rfl
  | mul a b c => cases h; rfl
  | div a b c => exact State.withRecordOf_finish r h (map_withRecordOf (quotient _ _) r fun _ => rfl)
  | nand a b c => cases h; rfl
  | halt => cases h; rfl
  | map b c =>
    refine State.withRecordOf_finish r h ?_
    rw [State.withRecordOf_segAlloc, State.withRecordOf_x]
    cases s.segAlloc (s.x c) <;> rfl
  | unmap c => exact State.withRecordOf_finish r h (State.withRecordOf_segFree ..)
  | out c => exact State.withRecordOf_finish r h (State.withRecordOf_outByte ..)
  | inp c => cases hi
  | loadprog b c =>
    refine State.withRecordOf_finish r h ?_
    rw [State.withRecordOf_segReplaceZero, State.withRecordOf_x, State.withRecordOf_x]
    cases s.segReplaceZero (s.x b) <;> rfl
  | limm a imm => cases h; rfl
  | illegal14 => cases h; rfl
  | illegal15 => cases h; rfl

/-- IN with an answer completes (R202). -/
theorem exec_inp_answered {c : Reg} {a : Answer} (h : s.hostAnswer = some a) :
    exec (.inp c) s = .next (s.takeReply.answered.setX c (answerWord a)) := by
  simp only [exec, execInp, h]

/-- IN without one waits (R127). -/
theorem exec_inp_waits {c : Reg} (h : s.hostAnswer = none) : exec (.inp c) s = .next s.takeReply.await := by
  simp only [exec, execInp, h]

/-- Given the host's reply, an instruction does the same with any record. -/
theorem exec_sameMachine {r : State} (hr : s.hostAnswer = (s.withRecordOf r).hostAnswer) (h : exec i s = .next t) :
    ∃ v, exec i (s.withRecordOf r) = .next v ∧ SameMachine t v := by
  cases hi : isInp i with
  | false => exact ⟨_, exec_withRecordOf r hi h, sameMachine_iff.2 ⟨r, rfl⟩⟩
  | true =>
    obtain ⟨c, rfl⟩ := isInp_iff.1 hi
    rcases (exec_effect h).inp_cases with ⟨a, ha, rfl⟩ | ⟨ha, rfl⟩
    · exact ⟨_, exec_inp_answered (hr.symm.trans ha), sameMachine_iff.2 ⟨(s.withRecordOf r).takeReply, rfl⟩⟩
    · exact ⟨_, exec_inp_waits (hr.symm.trans ha), sameMachine_iff.2 ⟨(s.withRecordOf r).takeReply, rfl⟩⟩

/-- Settles O35: fetch and decode do not read the record, and the instruction does the same with any (`exec_sameMachine`). -/
theorem stepDeterminedByStateAndReply : Obligations.StepDeterminedByStateAndReply := by
  intro s u t hsame ha hr h
  obtain ⟨r, rfl⟩ := sameMachine_iff.1 hsame
  obtain ⟨he, -⟩ := step_next_cases h
  cases hf : s.fetch with
  | error f =>
    rw [step_not_fetched he ha hf] at h
    cases h
    exact ⟨_, step_not_fetched (s := s.withRecordOf r) he ha ((s.withRecordOf_fetch r).trans hf),
      sameMachine_iff.2 ⟨r, rfl⟩⟩
  | ok w =>
    rw [step_fetched he ha hf] at h
    rw [step_fetched (s := s.withRecordOf r) he ha ((s.withRecordOf_fetch r).trans hf)]
    exact exec_sameMachine (s := s.advance) hr h

/-! ### One step: the decoded instruction, the fetch fault, the unassigned opcodes -/

/-- Settles O5. -/
theorem stepRunsDecodedInstruction : Obligations.StepRunsDecodedInstruction := by
  rintro s w _ hw rfl
  exact ⟨step_runs hw, rfl⟩

/-- Settles O6: without a word at the pc the fetch faults (R121), and raising a fault changes nothing else. -/
theorem fetchOutOfBoundsFaults : Obligations.FetchOutOfBoundsFaults := fun s he ha hw =>
  ⟨_, step_not_fetched he ha (State.fetch_error.2 ⟨.inr hw, rfl⟩), s.raise_faultedOnly _⟩

/-- A word whose opcode is not assigned is an illegal instruction, whatever its other bits (R99). -/
theorem exec_decode_unassigned {w : Word} (h : 14 ≤ (opField w).toNat) (s : State) :
    exec (decode w) s = .next (s.raise .illegalOpcode) := by
  have hop : opField w = 14 ∨ opField w = 15 := by bv_omega
  rcases hop with hop | hop
  · rw [decode_illegal14 hop, exec_illegal14]
  · rw [decode_illegal15 hop, exec_illegal15]

/-- Settles O7: the step raises the fault on the advanced state. -/
theorem illegalWordFaults : Obligations.IllegalWordFaults := fun s _ hw hop =>
  ⟨_, (step_runs hw).trans (exec_decode_unassigned hop _), s.advance.raise_faultedOnly _, rfl⟩

/-! ### What a faulting instruction changes (R126) -/

/-- An instruction leaves the engine as it is, raises its own fault and does nothing else, or is HALT. -/
theorem Effect.engine_cases (h : Effect s i t) :
    t.engine = s.engine ∨ (∃ f, ownFault i = some f ∧ t = s.raise f) ∨ (i = .halt ∧ t.engine = .halted) := by
  cases h with
  | raises hf => exact .inr (.inl ⟨_, hf, rfl⟩)
  | skips => exact .inl rfl
  | writes => exact .inl (State.setX_engine ..)
  | halts => exact .inr (.inr ⟨rfl, State.haltEngine_engine _⟩)
  | stores => exact .inl (State.setMemory_engine ..)
  | maps => exact .inl (by rw [State.setX_engine, State.setMemory_engine])
  | unmaps => exact .inl (State.setMemory_engine ..)
  | emits => exact .inl rfl
  | answers => exact .inl (by rw [State.setX_engine, State.answered_engine, State.takeReply_engine])
  | waits => exact .inl (by rw [State.await_engine, State.takeReply_engine])
  | jumps => exact .inl (State.setPc_engine ..)
  | replaces => exact .inl (by rw [State.setPc_engine, State.setMemory_engine])

/-- Where an instruction takes a running engine to `Faulted(f)`, its own check has raised `f`, and that is all it did. -/
theorem Effect.eq_raise {f : FaultCause} (h : Effect s i t) (he : s.engine = .running) (hf : t.engine = .faulted f) :
    ownFault i = some f ∧ t = s.raise f := by
  rcases h.engine_cases with hkept | ⟨g, hg, rfl⟩ | ⟨-, hhalt⟩
  · cases hf.symm.trans (hkept.trans he)
  · cases hf
    exact ⟨hg, rfl⟩
  · cases hf.symm.trans hhalt

/-- Settles O30. -/
theorem faultingInstructionChangesNothing : Obligations.FaultingInstructionChangesNothing := by
  intro i s t f he h hf
  obtain ⟨-, rfl⟩ := (exec_effect h).eq_raise he hf
  exact s.raise_faultedOnly f

/-! ### The wait for the host (R125, R127) -/

/-- No instruction but IN draws a reply. -/
theorem Effect.replies_eq (h : Effect s i t) (hi : isInp i = false) :
    t.hostReplies = s.hostReplies ∧ t.polls = s.polls := by
  cases h with
  | raises => exact ⟨State.raise_hostReplies .., State.raise_polls ..⟩
  | skips => exact ⟨rfl, rfl⟩
  | writes => exact ⟨State.setX_hostReplies .., State.setX_polls ..⟩
  | halts => exact ⟨State.haltEngine_hostReplies _, State.haltEngine_polls _⟩
  | stores => exact ⟨State.setMemory_hostReplies .., State.setMemory_polls ..⟩
  | maps => exact ⟨by rw [State.setX_hostReplies, State.setMemory_hostReplies],
      by rw [State.setX_polls, State.setMemory_polls]⟩
  | unmaps => exact ⟨State.setMemory_hostReplies .., State.setMemory_polls ..⟩
  | emits => exact ⟨rfl, rfl⟩
  | answers => cases hi
  | waits => cases hi
  | jumps => exact ⟨State.setPc_hostReplies .., State.setPc_polls ..⟩
  | replaces => exact ⟨by rw [State.setPc_hostReplies, State.setMemory_hostReplies],
      by rw [State.setPc_polls, State.setMemory_polls]⟩

/-- Settles O29, by the effects of the instructions. -/
theorem onlyInputWaits : Obligations.OnlyInputWaits := by
  intro i s t h
  cases hi : isInp i with
  | true => exact .inl (isInp_iff.1 hi)
  | false => exact .inr ⟨(exec_effect h).inReq_eq hi, (exec_effect h).replies_eq hi⟩

/-- The state after the step of an IN that the host has not answered: the fetch advance is taken back, and
what a program or the host can see is kept but for the request (vector N5i). -/
theorem State.await_kept (s : State) :
    s.advance.takeReply.await.pc = s.pc ∧ RegsKept none s s.advance.takeReply.await ∧
      MemoryKept s s.advance.takeReply.await ∧ s.advance.takeReply.await.output = s.output := by
  refine ⟨?_, fun r _ => ?_, MemoryKept.of_memory_eq ?_, ?_⟩
  · rw [State.await_pc, State.takeReply_pc, State.advance_pc, BitVec.add_sub_cancel]
  · rw [State.await_x, State.takeReply_x, State.advance_x]
  · rw [State.await_memory, State.takeReply_memory, State.advance_memory]
  · rw [State.await_output, State.takeReply_output, State.advance_output]

/-- STATUS while an IN waits: bit 2 alone (R27). -/
theorem State.status_of_waiting (he : s.engine = .running) (hreq : s.inReq = true) : s.status = 0x00000004 := by
  rw [State.status, State.waiting_iff.2 ⟨he, hreq⟩, he]
  decide

/-- The fetch advance draws no reply. -/
@[simp] theorem State.advance_hostAnswer (s : State) : s.advance.hostAnswer = s.hostAnswer := rfl

/-- A reply that the state fixes is the one the poll finds. -/
theorem State.hostAnswer_cons {r : Option Answer} {rest : List (Option Answer)} (h : s.hostReplies = r :: rest) :
    s.hostAnswer = r := by
  rw [State.hostAnswer, h, List.head?_cons, Option.getD_some]

/-- Settles O25. -/
theorem inputWaitsWithoutChange : Obligations.InputWaitsWithoutChange := by
  intro c s w rest hw hdecode hrep
  have he : s.engine = .running := hw.1
  have hstep : step s = .next s.advance.takeReply.await := by
    rw [step_runs hw, hdecode, exec_inp_waits (s.advance_hostAnswer.trans (State.hostAnswer_cons hrep))]
  obtain ⟨hpc, hregs, hmem, hout⟩ := s.await_kept
  exact ⟨_, hstep, State.status_of_waiting he rfl, rfl, he, hpc, hregs, hmem, hout, rfl, rfl, by simp [hrep],
    by simp [hrep], rfl⟩

/-- A step while a request is pending is a step of the IN that waits (R127). -/
theorem step_waiting (hs : s.inv = true) (hreq : s.inReq = true) (h : step s = .next t) :
    ∃ c, Effect s.advance (.inp c) t := by
  obtain ⟨-, -, hw⟩ := State.inv_iff.1 hs
  rcases State.waitsAtInp_iff.1 hw with hidle | ⟨-, ha, hat⟩
  · cases hreq.symm.trans hidle
  · obtain ⟨-, ⟨ha', -⟩ | ⟨-, f, hf, -⟩ | ⟨-, w, hf, heff⟩⟩ := step_next_cases h
    · cases ha.symm.trans ha'
    · simp [State.atInp, hf] at hat
    · obtain ⟨c, hc⟩ := isInp_iff.1 ((State.atInp_of_fetch hf).symm.trans hat)
      exact ⟨c, hc ▸ heff⟩

/-- The state after the step of an IN that the host has answered: the request is over and the answer is in one register. -/
theorem State.answered_kept (s : State) (c : Reg) (v : Word) :
    MemoryKept s (s.advance.takeReply.answered.setX c v) ∧ (s.advance.takeReply.answered.setX c v).output = s.output ∧
      RegsKept (some c) s (s.advance.takeReply.answered.setX c v) := by
  refine ⟨MemoryKept.of_memory_eq ?_, ?_, RegsKept.setX v fun r _ => ?_⟩
  · rw [State.setX_memory, State.answered_memory, State.takeReply_memory, State.advance_memory]
  · rw [State.setX_output, State.answered_output, State.takeReply_output, State.advance_output]
  · rw [State.answered_x, State.takeReply_x, State.advance_x]

/-- Settles O41: the invariant puts the pc at an IN, and an IN waits or completes by the host's reply. -/
theorem waitEndsOnlyWithTheAnswer : Obligations.WaitEndsOnlyWithTheAnswer := by
  intro s t hs hreq h
  obtain ⟨c, heff⟩ := step_waiting hs hreq h
  rw [← s.advance_hostAnswer]
  rcases heff.inp_cases with ⟨a, ha, rfl⟩ | ⟨ha, rfl⟩
  · refine ⟨fun hnone => (by cases ha.symm.trans hnone), fun b hb => ?_⟩
    cases ha.symm.trans hb
    obtain ⟨hmem, hout, hregs⟩ := s.answered_kept c (answerWord a)
    exact ⟨rfl, rfl, hmem, hout, c, State.setX_x_same .., hregs⟩
  · exact ⟨fun _ => ⟨rfl, s.await_kept⟩, fun a hsome => (by cases ha.symm.trans hsome)⟩

end Sys2Proof.Machine

/-! PROOFS. The register and arithmetic instructions (spec/41_register_ops.md R140 to R145): each writes at most the
register A, from operands read before the write (R12), and DIV can fault instead. -/

namespace Sys2Proof.Machine

variable {s : State} {i : Instr} {d : Reg} {v : Word}

/-! ### The frame of a register write -/

theorem OnlyRegisters.refl (written : Option Reg) (s : State) : OnlyRegisters written s s :=
  ⟨fun _ _ => rfl, rfl, rfl, .of_memory_eq rfl, ⟨rfl, rfl⟩, rfl, rfl, rfl, rfl, rfl⟩

/-- A register write changes nothing but its register. -/
theorem OnlyRegisters.setX (s : State) (d : Reg) (v : Word) : OnlyRegisters (some d) s (s.setX d v) :=
  ⟨RegsKept.setX v fun _ _ => rfl, s.setX_pc d v, s.setX_engine d v, .of_memory_eq (s.setX_memory d v),
    ⟨s.setX_output d v, s.setX_inReq d v⟩, s.setX_params d v, s.setX_awaitingImage d v, s.setX_hostReplies d v,
    s.setX_polls d v, s.setX_loads d v⟩

/-- An instruction that ends in a register write: the value it leaves, and its frame. -/
theorem exec_writes (h : exec i s = .next (s.setX d v)) :
    ∃ t, exec i s = .next t ∧ t.x d = v ∧ OnlyRegisters (some d) s t :=
  ⟨_, h, s.setX_x_same d v, .setX s d v⟩

/-! ### What each instruction answers -/

/-- The condition of CMOV (R140). -/
theorem conditionHolds_iff : conditionHolds v = true ↔ v ≠ 0 := decide_eq_true_iff

theorem exec_cmov (a b c : Reg) (s : State) :
    exec (.cmov a b c) s = .next (if conditionHolds (s.x c) then s.setX a (s.x b) else s) := rfl

theorem exec_cmov_of_ne_zero {c : Reg} (a b : Reg) (h : s.x c ≠ 0) :
    exec (.cmov a b c) s = .next (s.setX a (s.x b)) := by
  rw [exec_cmov, if_pos (conditionHolds_iff.2 h)]

theorem exec_cmov_of_eq_zero {c : Reg} (a b : Reg) (h : s.x c = 0) : exec (.cmov a b c) s = .next s := by
  rw [exec_cmov, if_neg fun hc => conditionHolds_iff.1 hc h]

theorem exec_add (a b c : Reg) (s : State) : exec (.add a b c) s = .next (s.setX a (s.x b + s.x c)) := rfl

theorem exec_mul (a b c : Reg) (s : State) : exec (.mul a b c) s = .next (s.setX a (s.x b * s.x c)) := rfl

theorem exec_div (a b c : Reg) (s : State) :
    exec (.div a b c) s = s.finish ((quotient (s.x b) (s.x c)).map (s.setX a)) := rfl

theorem exec_nand (a b c : Reg) (s : State) : exec (.nand a b c) s = .next (s.setX a (~~~(s.x b &&& s.x c))) := rfl

theorem exec_limm (a : Reg) (imm : Word) (s : State) : exec (.limm a imm) s = .next (s.setX a imm) := rfl

theorem exec_div_of_ne_zero {c : Reg} (a b : Reg) (h : s.x c ≠ 0) :
    exec (.div a b c) s = .next (s.setX a ((s.x b).udiv (s.x c))) := by
  rw [exec_div, quotient, if_neg h, Except.map, State.finish_ok]

theorem exec_div_of_eq_zero {c : Reg} (a b : Reg) (h : s.x c = 0) :
    exec (.div a b c) s = .next (s.raise .divisionByZero) := by
  rw [exec_div, quotient, if_pos h, Except.map, State.finish_error]

/-! ### The statements -/

/-- Settles O10, by the condition: the write of x[B], or the state as it was. -/
theorem conditionalMove : Obligations.ConditionalMove := by
  refine ⟨fun _ => decode_cmov, fun a b c s => ?_⟩
  by_cases hc : s.x c = 0
  · exact ⟨s, exec_cmov_of_eq_zero a b hc, fun hne => absurd hc hne, fun _ => rfl, .refl _ s⟩
  · obtain ⟨t, ht, hv, hkept⟩ := exec_writes (exec_cmov_of_ne_zero a b hc)
    exact ⟨t, ht, fun _ => hv, fun hz => absurd hz hc, hkept⟩

/-- Settles O11: addition of words is modulo 2^32. -/
theorem addWraps : Obligations.AddWraps := by
  refine ⟨fun _ => decode_add, fun a b c s => ?_⟩
  obtain ⟨t, ht, hv, hkept⟩ := exec_writes (exec_add a b c s)
  exact ⟨t, ht, hv ▸ BitVec.toNat_add .., hkept⟩

/-- Settles O12: multiplication of words is modulo 2^32. -/
theorem multiplyKeepsLowWord : Obligations.MultiplyKeepsLowWord := by
  refine ⟨fun _ => decode_mul, fun a b c s => ?_⟩
  obtain ⟨t, ht, hv, hkept⟩ := exec_writes (exec_mul a b c s)
  exact ⟨t, ht, hv ▸ BitVec.toNat_mul .., hkept⟩

/-- Settles O13, by the divisor: the write of the quotient, or the fault, which changes nothing else (R232). -/
theorem divideIsUnsignedFloor : Obligations.DivideIsUnsignedFloor := by
  refine ⟨fun _ => decode_div, fun a b c s => ⟨fun hc => ?_, fun hc => ?_⟩⟩
  · obtain ⟨t, ht, hv, hkept⟩ := exec_writes (exec_div_of_ne_zero a b hc)
    exact ⟨t, ht, hv ▸ BitVec.toNat_udiv, hkept⟩
  · exact ⟨_, exec_div_of_eq_zero a b hc, s.raise_faultedOnly _⟩

/-- Settles O14: a bit below the width of the complement is the complement of the bit. -/
theorem nandBitwise : Obligations.NandBitwise := by
  refine ⟨fun _ => decode_nand, fun a b c s => ?_⟩
  obtain ⟨t, ht, hv, hkept⟩ := exec_writes (exec_nand a b c s)
  refine ⟨t, ht, fun k hk => ?_, hkept⟩
  rw [hv, BitVec.getLsbD_not, BitVec.getLsbD_and, decide_eq_true hk, Bool.true_and]

/-- Settles O15: LIMM writes its operand, and the operand of a word of opcode 13 is the word modulo 2^25
(`immField_toNat`). -/
theorem loadImmediateZeroExtends : Obligations.LoadImmediateZeroExtends := by
  refine ⟨fun a imm s => exec_writes (exec_limm a imm s), fun w s hop => ?_⟩
  rw [decode_limm hop]
  obtain ⟨t, ht, hv, hkept⟩ := exec_writes (exec_limm (regField w 25) (immField w) s)
  exact ⟨t, ht, hv ▸ immField_toNat w, hkept⟩

end Sys2Proof.Machine

/-! PROOFS. The segment and control-transfer instructions (spec/42_segment_ops.md R170 to R174): each is one segment
primitive (R52 to R56), whose check decides between the effect and the fault, with its frame. -/

namespace Sys2Proof.Machine

variable {s t : State} {i : Instr} {m n : Memory}

/-! ### The checks, by the mapped lengths of R30 -/

theorem Memory.mapped_eq_true {id : Nat} : m.mapped id = true ↔ m.lenOf id ≠ none := by
  rw [Memory.mapped_eq_lenOf_isSome, Option.isSome_iff_ne_none]

theorem Memory.mapped_eq_false {id : Nat} : m.mapped id = false ↔ m.lenOf id = none := by
  rw [← Bool.not_eq_true, Memory.mapped_eq_true, not_not]

/-- The positive form of `State.validId_eq_false` (R51). -/
theorem State.validId_eq_true {id : Word} : s.validId id = true ↔
    id.toNat < s.params.nseg ∧ s.memory.lenOf id.toNat ≠ none := by
  rw [← Bool.not_eq_false, State.validId_eq_false, not_or, Nat.not_le]

/-- (id, off) is in bounds exactly when the offset is below the length of a valid identifier's slot (R51). -/
theorem State.inBounds_iff_lenOf {id off : Word} : s.inBounds id off = true ↔
    id.toNat < s.params.nseg ∧ ∃ k, s.memory.lenOf id.toNat = some k ∧ off.toNat < k := by
  rw [State.inBounds, Bool.and_eq_true, State.validId_eq_true, decide_eq_true_iff, and_assoc]
  cases s.memory.lenOf id.toNat <;> simp

/-- The three ways to be out of bounds: no such identifier, no such slot, or an offset at or beyond the length (R51). -/
theorem State.inBounds_eq_false_iff {id off : Word} : s.inBounds id off = false ↔
    s.params.nseg ≤ id.toNat ∨ s.memory.lenOf id.toNat = none ∨
      ∃ k, s.memory.lenOf id.toNat = some k ∧ k ≤ off.toNat := by
  rw [← Bool.not_eq_true, State.inBounds_iff_lenOf, not_and_or, Nat.not_lt]
  cases s.memory.lenOf id.toNat <;> simp

/-! ### What an operation on one slot does to that slot and to the others -/

theorem Memory.lenOf_of_seg {id : Nat} {g : Segment} (h : m.seg id = some g) : m.lenOf id = some g.len := by
  rw [Memory.lenOf, h, Option.map_some]

theorem Memory.install_fresh_lenOf (m : Memory) (id len : Nat) :
    (m.install id (Segment.fresh len)).lenOf id = some len :=
  Memory.lenOf_of_seg (Memory.install_seg_same ..)

/-- Every word of a fresh slot is 0 (R54). -/
theorem Memory.install_fresh_word (m : Memory) (id : Nat) {len k : Nat} (h : k < len) :
    (m.install id (Segment.fresh len)).word id k = some 0 := by
  rw [Memory.word_of_seg (Memory.install_seg_same ..), Segment.fresh_len, if_pos h, Segment.fresh_read]

theorem Memory.unmap_lenOf_same (m : Memory) (id : Nat) : (m.unmap id).lenOf id = none := by
  rw [Memory.lenOf, Memory.unmap_seg_same, Option.map_none]

/-- Slot 0 takes the length of the slot copied (R56). -/
theorem Memory.copyToZero_lenOf_zero {id : Nat} {g : Segment} (h : m.seg id = some g) :
    (m.copyToZero id).lenOf 0 = m.lenOf id := by
  have h0 : (m.copyToZero id).seg 0 = some g := by rw [Memory.copyToZero_seg h, if_pos rfl]
  rw [Memory.lenOf_of_seg h0, Memory.lenOf_of_seg h]

/-- A slot that holds the same segment is kept. -/
theorem SlotKept.of_seg_eq {j : Nat} (h : t.memory.seg j = s.memory.seg j) : SlotKept j s t :=
  ⟨Memory.lenOf_congr h, Memory.word_congr h⟩

/-- Replacing the Segment Table changes nothing else. -/
theorem OnlyMemory.setMemory (s : State) (m : Memory) : OnlyMemory s (s.setMemory m) :=
  ⟨fun r _ => s.setMemory_x m r, s.setMemory_pc m, s.setMemory_engine m, ⟨s.setMemory_output m, s.setMemory_inReq m⟩,
    s.setMemory_params m, s.setMemory_awaitingImage m, s.setMemory_hostReplies m, s.setMemory_polls m,
    s.setMemory_loads m⟩

/-! ### The identifier MAP takes -/

/-- Which identifier is the lowest free one depends on the mapped flags alone (R54). -/
theorem Memory.lowestFree_congr (h : ∀ j, m.mapped j = n.mapped j) (lo k : Nat) :
    m.lowestFree lo k = n.lowestFree lo k :=
  Option.ext fun id => by simp only [Memory.lowestFree_eq_some, h]

/-- `lowestFree` over 1..NSEG-1, in the words of R172: the lowest unmapped identifier. -/
theorem Memory.lowestFree_slots_eq_some {nseg id : Nat} : m.lowestFree 1 (nseg - 1) = some id ↔
    (1 ≤ id ∧ id < nseg) ∧ m.lenOf id = none ∧ ∀ j, 1 ≤ j → j < id → m.lenOf j ≠ none := by
  rw [Memory.lowestFree_eq_some, Memory.mapped_eq_false]
  simp only [Memory.mapped_eq_true]
  refine and_congr_left fun _ => ?_
  omega

theorem Memory.lowestFree_slots_eq_none {nseg : Nat} : m.lowestFree 1 (nseg - 1) = none ↔
    ∀ j, 1 ≤ j → j < nseg → m.lenOf j ≠ none := by
  rw [Memory.lowestFree_eq_none]
  simp only [Memory.mapped_eq_true]
  exact forall₂_congr fun j hj => imp_congr_left (by omega)

/-- `SegAlloc` where NSEG is at most 2^32: every identifier is a word and none wraps (R9, R54). -/
theorem State.segAlloc_ok_of_nseg_le {len id : Word} (hn : s.params.nseg ≤ 2 ^ 32) : s.segAlloc len = .ok (id, t) ↔
    len.toNat ≤ s.params.maxSegWords ∧ s.memory.lowestFree 1 (s.params.nseg - 1) = some id.toNat ∧
      t = s.setMemory (s.memory.install id.toNat (Segment.fresh len.toNat)) := by
  rw [State.segAlloc_ok]
  refine and_congr_right fun _ => ⟨?_, fun ⟨hfree, ht⟩ => ⟨id.toNat, hfree, by simp, ht⟩⟩
  rintro ⟨k, hfree, rfl, rfl⟩
  obtain ⟨-, hk⟩ := Memory.lowestFree_bounds hfree
  rw [BitVec.toNat_ofNat, Nat.mod_eq_of_lt (hk.trans_le hn)]
  exact ⟨hfree, rfl⟩

/-! ### What each instruction answers -/

theorem exec_sload (a b c : Reg) (s : State) :
    exec (.sload a b c) s = s.finish ((s.segRead (s.x b) (s.x c)).map (s.setX a)) := rfl

theorem exec_sstore (a b c : Reg) (s : State) :
    exec (.sstore a b c) s = s.finish (s.segWrite (s.x a) (s.x b) (s.x c)) := rfl

theorem exec_map (b c : Reg) (s : State) :
    exec (.map b c) s = s.finish ((s.segAlloc (s.x c)).map fun r => r.2.setX b r.1) := rfl

theorem exec_unmap (c : Reg) (s : State) : exec (.unmap c) s = s.finish (s.segFree (s.x c)) := rfl

theorem exec_loadprog (b c : Reg) (s : State) :
    exec (.loadprog b c) s = s.finish ((s.segReplaceZero (s.x b)).map fun t => t.setPc (s.x c)) := rfl

theorem exec_sload_of_ok {a b c : Reg} {v : Word} (h : s.segRead (s.x b) (s.x c) = .ok v) :
    exec (.sload a b c) s = .next (s.setX a v) := by
  rw [exec_sload, h, Except.map, State.finish_ok]

theorem exec_sstore_of_ok {a b c : Reg} (h : s.segWrite (s.x a) (s.x b) (s.x c) = .ok t) :
    exec (.sstore a b c) s = .next t := by
  rw [exec_sstore, h, State.finish_ok]

theorem exec_map_of_ok {b c : Reg} {id : Word} (h : s.segAlloc (s.x c) = .ok (id, t)) :
    exec (.map b c) s = .next (t.setX b id) := by
  rw [exec_map, h, Except.map, State.finish_ok]

theorem exec_unmap_of_ok {c : Reg} (h : s.segFree (s.x c) = .ok t) : exec (.unmap c) s = .next t := by
  rw [exec_unmap, h, State.finish_ok]

theorem exec_loadprog_of_ok {b c : Reg} (h : s.segReplaceZero (s.x b) = .ok t) :
    exec (.loadprog b c) s = .next (t.setPc (s.x c)) := by
  rw [exec_loadprog, h, Except.map, State.finish_ok]

/-- An instruction whose primitive raises a fault makes no other change (R232). -/
theorem exec_faults {r : Except FaultCause State} {f : FaultCause} (h : exec i s = s.finish r) (hr : r = .error f) :
    ∃ t, exec i s = .next t ∧ FaultedOnly f s t :=
  ⟨s.raise f, by rw [h, hr, State.finish_error], s.raise_faultedOnly f⟩

/-! ### The statements -/

/-- Settles O16, by the bounds check of `SegRead`: the register write of the word, or the fault. -/
theorem segmentLoad : Obligations.SegmentLoad := by
  refine ⟨fun _ => decode_sload, fun a b c s => ⟨fun k hid hlen hoff => ?_, fun hout => ?_⟩⟩
  · have hin : s.inBounds (s.x b) (s.x c) = true := State.inBounds_iff_lenOf.2 ⟨hid, k, hlen, hoff⟩
    obtain ⟨-, v, hv⟩ := State.inBounds_iff_word.1 hin
    obtain ⟨t, ht, hx, hkept⟩ := exec_writes (exec_sload_of_ok (a := a) (State.segRead_ok.2 ⟨hid, hv⟩))
    exact ⟨t, ht, hx ▸ hv, hkept⟩
  · exact exec_faults (exec_sload a b c s)
      (map_error.2 (State.segRead_error.2 ⟨State.inBounds_eq_false_iff.2 hout, rfl⟩))

/-- Settles O17, by the bounds check of `SegWrite`: a store keeps every length and every other word. -/
theorem segmentStore : Obligations.SegmentStore := by
  refine ⟨fun _ => decode_sstore, fun a b c s => ⟨fun k hid hlen hoff => ?_, fun hout => ?_⟩⟩
  · have hin : s.inBounds (s.x a) (s.x b) = true := State.inBounds_iff_lenOf.2 ⟨hid, k, hlen, hoff⟩
    have hw := State.segWrite_ok (v := s.x c).2 ⟨hin, rfl⟩
    exact ⟨_, exec_sstore_of_ok hw, State.segWrite_word_same hw, fun _ _ => State.segWrite_word_other hw,
      s.memory.store_lenOf _ _ _, .setMemory s _⟩
  · exact exec_faults (exec_sstore a b c s) (State.segWrite_error.2 ⟨State.inBounds_eq_false_iff.2 hout, rfl⟩)

/-- Settles O18: the lowest unmapped identifier is the one `SegAlloc` installs a fresh slot at, and its two faults are the
two checks of R54. -/
theorem mapTakesLowestFreeSlot : Obligations.MapTakesLowestFreeSlot := by
  refine ⟨fun _ => decode_map, fun b c s hn => ⟨fun id hsize hlo hhi hfree hbelow => ?_, fun hout => ?_⟩⟩
  · obtain ⟨w, rfl⟩ : ∃ w : Word, w.toNat = id := ⟨.ofNatLT id (hhi.trans_le hn), rfl⟩
    have hlowest := Memory.lowestFree_slots_eq_some.2 ⟨⟨hlo, hhi⟩, hfree, hbelow⟩
    have halloc := (State.segAlloc_ok_of_nseg_le hn).2 ⟨hsize, hlowest, rfl⟩
    obtain ⟨hregs, hpc, heng, hport, hhost⟩ := OnlyMemory.setMemory s (s.memory.install w.toNat (.fresh (s.x c).toNat))
    exact ⟨_, exec_map_of_ok halloc, by rw [State.setX_x_same], s.memory.install_fresh_lenOf _ _,
      fun _ => s.memory.install_fresh_word _, fun _ hj => .of_seg_eq (s.memory.install_seg_other _ hj),
      hregs.setX w, hpc, heng, hport, hhost⟩
  · exact exec_faults (exec_map b c s)
      (map_error.2 (State.segAlloc_error.2 ⟨hout.imp_right Memory.lowestFree_slots_eq_none.2, rfl⟩))

/-- Settles O19, by the check of `SegFree`: a valid identifier other than 0. -/
theorem unmapFreesOneSlot : Obligations.UnmapFreesOneSlot := by
  refine ⟨fun _ => decode_unmap, fun c s => ⟨fun h0 hid hlen => ?_, fun hout => ?_⟩⟩
  · have hfree := State.segFree_ok.2 ⟨h0, State.validId_eq_true.2 ⟨hid, hlen⟩, rfl⟩
    exact ⟨_, exec_unmap_of_ok hfree, s.memory.unmap_lenOf_same _,
      fun _ hj => .of_seg_eq (s.memory.unmap_seg_other hj), .setMemory s _⟩
  · exact exec_faults (exec_unmap c s) (State.segFree_error.2 ⟨hout.imp_right State.validId_eq_false.2, rfl⟩)

/-- Settles O20, by the three answers of `SegReplaceZero`: nothing to copy, the copy to slot 0, or the fault. -/
theorem loadProgramCopiesAndJumps : Obligations.LoadProgramCopiesAndJumps := by
  refine ⟨fun _ => decode_loadprog, fun b c s => ⟨fun h0 => ?_, fun h0 hid hlen => ?_, fun h0 hout => ?_⟩⟩
  · obtain ⟨hregs, -, heng, hmem, hport, hhost⟩ := OnlyRegisters.refl none s
    exact ⟨_, exec_loadprog_of_ok (State.segReplaceZero_ok.2 (.inl ⟨h0, rfl⟩)), rfl, hregs, heng, hmem, hport, hhost⟩
  · have hvalid : s.validId (s.x b) = true := State.validId_eq_true.2 ⟨hid, hlen⟩
    obtain ⟨-, g, hg⟩ := State.validId_iff.1 hvalid
    have hcopy := State.segReplaceZero_ok.2 (.inr ⟨h0, hvalid, rfl⟩)
    obtain ⟨hregs, -, heng, hport, hhost⟩ := OnlyMemory.setMemory s (s.memory.copyToZero (s.x b).toNat)
    exact ⟨_, exec_loadprog_of_ok hcopy, rfl, Memory.copyToZero_lenOf_zero hg, Memory.copyToZero_word_zero hg,
      fun _ hj => .of_seg_eq ((Memory.copyToZero_seg hg _).trans (if_neg hj)), hregs, heng, hport, hhost⟩
  · exact exec_faults (exec_loadprog b c s)
      (map_error.2 (State.segReplaceZero_error.2 ⟨h0, State.validId_eq_false.2 hout, rfl⟩))

/-! ### Mapping again after an unmap (vector S3) -/

theorem State.segWrite_lenOf {id off v : Word} (h : s.segWrite id off v = .ok t) (j : Nat) :
    t.memory.lenOf j = s.memory.lenOf j := by
  obtain ⟨-, rfl⟩ := State.segWrite_ok.1 h
  exact s.memory.store_lenOf ..

/-- Installing a segment in a free slot and unmapping it restores every mapped flag, whatever is stored in between. -/
theorem Memory.mapped_unmap_of_install {id : Nat} {g : Segment} (hfree : m.lenOf id = none)
    (h : ∀ j, n.lenOf j = (m.install id g).lenOf j) (j : Nat) : (n.unmap id).mapped j = m.mapped j := by
  rw [Memory.mapped_eq_lenOf_isSome, Memory.mapped_eq_lenOf_isSome]
  by_cases hj : j = id
  · rw [hj, Memory.unmap_lenOf_same, hfree]
  · rw [Memory.lenOf_congr (n.unmap_seg_other hj), h, Memory.lenOf_congr (m.install_seg_other g hj)]

/-- Settles O44: the unmap restores the mapped flags that the first `SegAlloc` saw, so the second finds the same lowest
free identifier, and its slot is fresh. -/
theorem remapReturnsSameIdentifierZeroed : Obligations.RemapReturnsSameIdentifierZeroed := by
  intro s s1 s2 len id off v hn halloc hstore
  obtain ⟨hparams, hlens⟩ : s2.params = s1.params ∧ ∀ j, s2.memory.lenOf j = s1.memory.lenOf j := by
    rcases hstore with rfl | hw
    · exact ⟨rfl, fun _ => rfl⟩
    · exact ⟨State.segWrite_params hw, State.segWrite_lenOf hw⟩
  obtain ⟨hsize, hlowest, rfl⟩ := (State.segAlloc_ok_of_nseg_le hn).1 halloc
  obtain ⟨⟨hlo, hhi⟩, hfree, -⟩ := Memory.lowestFree_slots_eq_some.1 hlowest
  simp only [State.setMemory_params, State.setMemory_memory] at hparams hlens
  have hid0 : id ≠ 0 := by
    rintro rfl
    exact absurd hlo (by decide)
  have hvalid : s2.validId id = true := by
    rw [State.validId_eq_true, hparams, hlens, Memory.install_fresh_lenOf]
    exact ⟨hhi, nofun⟩
  have hlowest' : (s2.memory.unmap id.toNat).lowestFree 1 (s2.params.nseg - 1) = some id.toNat := by
    rw [hparams, Memory.lowestFree_congr (Memory.mapped_unmap_of_install hfree hlens), hlowest]
  refine ⟨_, _, State.segFree_ok.2 ⟨hid0, hvalid, rfl⟩,
    (State.segAlloc_ok_of_nseg_le (hparams ▸ hn)).2 ⟨hparams ▸ hsize, hlowest', rfl⟩, fun k hk => ?_⟩
  exact State.segRead_ok.2 ⟨hparams ▸ hhi, Memory.install_fresh_word _ _ hk⟩

end Sys2Proof.Machine

/-! PROOFS. Halt and the I/O instructions (spec/43_control_io.md R200 to R208): HALT changes the engine alone, OUT
appends one byte or faults, IN uses up one reply of the host and completes or waits by it, and no other instruction emits. -/

namespace Sys2Proof.Machine

variable {s t : State} {i : Instr} {c : Reg}

/-! ### Which instructions emit (R203, R205) -/

/-- An effect leaves the output trace as it is, but for OUT's, which appends one byte. -/
theorem Effect.output_cases (h : Effect s i t) :
    t.output = s.output ∨ ∃ c, i = .out c ∧ ∃ b, t.output = s.output ++ [b] := by
  cases h with
  | raises => exact .inl (State.raise_output ..)
  | skips => exact .inl rfl
  | writes => exact .inl (State.setX_output ..)
  | halts => exact .inl (State.haltEngine_output _)
  | stores => exact .inl (State.setMemory_output ..)
  | maps => exact .inl (by rw [State.setX_output, State.setMemory_output])
  | unmaps => exact .inl (State.setMemory_output ..)
  | emits => exact .inr ⟨_, rfl, _, rfl⟩
  | answers => exact .inl (by rw [State.setX_output, State.answered_output, State.takeReply_output])
  | waits => exact .inl (by rw [State.await_output, State.takeReply_output])
  | jumps => exact .inl (State.setPc_output ..)
  | replaces => exact .inl (by rw [State.setPc_output, State.setMemory_output])

/-- Settles O28, by the effects of the instructions. -/
theorem onlyOutputEmits : Obligations.OnlyOutputEmits := fun _ _ _ h => (exec_effect h).output_cases

/-! ### HALT -/

theorem exec_halt (s : State) : exec .halt s = .next s.haltEngine := rfl

/-- Settles O21: `Halted` is entered with every other field as it was. -/
theorem haltStopsTheEngine : Obligations.HaltStopsTheEngine := by
  refine ⟨fun _ => decode_halt, fun s => ⟨_, exec_halt s, s.haltEngine_engine, fun r _ => s.haltEngine_x r,
    s.haltEngine_pc, .of_memory_eq s.haltEngine_memory, ⟨s.haltEngine_output, s.haltEngine_inReq⟩, ?_⟩⟩
  exact ⟨s.haltEngine_params, s.haltEngine_awaitingImage, s.haltEngine_hostReplies, s.haltEngine_polls,
    s.haltEngine_loads⟩

/-! ### OUT -/

theorem exec_out (c : Reg) (s : State) : exec (.out c) s = s.finish (s.outByte (s.x c)) := rfl

/-- The byte that OUT emits is the register's value (R201). -/
theorem extractLsb'_low_byte (v : Word) : v.extractLsb' 0 8 = BitVec.ofNat 8 v.toNat := rfl

theorem exec_out_of_le (h : (s.x c).toNat ≤ 255) :
    exec (.out c) s = .next { s with output := s.output ++ [BitVec.ofNat 8 (s.x c).toNat] } := by
  rw [exec_out, State.outByte_ok.2 ⟨h, rfl⟩, State.finish_ok, extractLsb'_low_byte]

/-- Settles O22, by the check of R201: the byte at the end of the output trace, or the fault. -/
theorem outputAppendsOneByte : Obligations.OutputAppendsOneByte := by
  refine ⟨fun _ => decode_out, fun c s => ⟨fun hle => ?_, fun hgt => ?_⟩⟩
  · exact ⟨_, exec_out_of_le hle, rfl, fun _ _ => rfl, rfl, rfl, .of_memory_eq rfl, rfl, rfl, rfl, rfl, rfl, rfl⟩
  · exact exec_faults (exec_out c s) (State.outByte_error.2 ⟨hgt, rfl⟩)

/-! ### IN -/

/-- Where the state fixes no reply, the poll finds the free one of its number (R208). -/
theorem State.hostAnswer_nil (h : s.hostReplies = []) : s.hostAnswer = Config.hostReply s.polls := by
  rw [State.hostAnswer, h, List.head?_nil, Option.getD_none]

/-- A poll that finds a fixed reply uses up that one and draws no free one. -/
theorem State.takeReply_of_cons {r : Option Answer} {rest : List (Option Answer)} (h : s.hostReplies = r :: rest) :
    s.takeReply.hostReplies = rest ∧ s.takeReply.polls = s.polls := by
  simp [h]

/-- A poll that finds no fixed reply draws one free reply. -/
theorem State.takeReply_of_nil (h : s.hostReplies = []) :
    s.takeReply.hostReplies = [] ∧ s.takeReply.polls = s.polls + 1 := by
  simp [h]

/-- IN uses up one reply, whether it completes or waits. -/
theorem Effect.inp_replies (h : Effect s (.inp c) t) :
    t.hostReplies = s.takeReply.hostReplies ∧ t.polls = s.takeReply.polls := by
  rcases h.inp_cases with ⟨a, -, rfl⟩ | ⟨-, rfl⟩
  · exact ⟨by rw [State.setX_hostReplies, State.answered_hostReplies], by rw [State.setX_polls, State.answered_polls]⟩
  · exact ⟨State.await_hostReplies _, State.await_polls _⟩

/-- What IN leaves as it is, whether it completes or waits. -/
theorem Effect.inp_frame (h : Effect s (.inp c) t) : t.engine = s.engine ∧ MemoryKept s t ∧ t.output = s.output ∧
    t.params = s.params ∧ t.awaitingImage = s.awaitingImage ∧ t.loads = s.loads := by
  rcases h.inp_cases with ⟨a, -, rfl⟩ | ⟨-, rfl⟩
  · exact ⟨rfl, .of_memory_eq rfl, rfl, rfl, rfl, rfl⟩
  · exact ⟨rfl, .of_memory_eq rfl, rfl, rfl, rfl, rfl⟩

/-- IN with an answer: the value in its register, the request over, and the pc at the fetch advance (R202, R206). -/
theorem exec_inp_completes {a : Answer} (c : Reg) (h : s.hostAnswer = some a) :
    ∃ t, exec (.inp c) s = .next t ∧ t.x c = answerWord a ∧ t.inReq = false ∧ t.pc = s.pc ∧ RegsKept (some c) s t := by
  have hexec := exec_inp_answered (c := c) h
  refine ⟨_, hexec, State.setX_x_same .., ?_, ?_, (exec_effect hexec).regsKept⟩
  · rw [State.setX_inReq, State.answered_inReq]
  · rw [State.setX_pc, State.answered_pc, State.takeReply_pc]

/-- A byte is zero-extended (D11). -/
theorem answerWord_byte_toNat (b : Byte) : (answerWord (.byte b)).toNat = b.toNat :=
  BitVec.toNat_setWidth_of_le (by decide)

/-- Settles O23: the poll finds the fixed answer, and IN completes with it. -/
theorem inputCompletesWithAnswer : Obligations.InputCompletesWithAnswer := by
  intro c s a rest hrep
  obtain ⟨t, ht, hx, hreq, hpc, hregs⟩ := exec_inp_completes c (State.hostAnswer_cons hrep)
  obtain ⟨hreplies, hpolls⟩ := (exec_effect ht).inp_replies
  obtain ⟨heng, hmem, hout, hparams, hawait, hloads⟩ := (exec_effect ht).inp_frame
  obtain ⟨hrest, hfree⟩ := State.takeReply_of_cons hrep
  refine ⟨t, ht, ?_, ?_, hreq, hreplies.trans hrest, hregs, hpc, heng, hmem, hout, hparams, hawait,
    hpolls.trans hfree, hloads⟩
  · rintro b rfl
    rw [hx, answerWord_byte_toNat]
  · rintro rfl
    exact hx

/-- Settles O24, by the free reply: IN completes with it, or waits. -/
theorem inputTakesAFreeDraw : Obligations.InputTakesAFreeDraw := by
  intro c s hrep
  obtain ⟨hrest, hfree⟩ := State.takeReply_of_nil hrep
  have hanswer := State.hostAnswer_nil hrep
  cases hr : Config.hostReply s.polls with
  | some a =>
    obtain ⟨t, ht, hcompletes⟩ := exec_inp_completes c (hanswer.trans hr)
    obtain ⟨hreplies, hpolls⟩ := (exec_effect ht).inp_replies
    exact ⟨t, ht, hpolls.trans hfree, hreplies.trans hrest, hcompletes, (exec_effect ht).inp_frame⟩
  | none =>
    have ht := exec_inp_waits (c := c) (hanswer.trans hr)
    obtain ⟨hreplies, hpolls⟩ := (exec_effect ht).inp_replies
    exact ⟨_, ht, hpolls.trans hfree, hreplies.trans hrest, ⟨rfl, rfl, fun _ _ => rfl⟩, (exec_effect ht).inp_frame⟩

end Sys2Proof.Machine

/-! PROOFS. Faults (spec/60_exceptions.md): the codes of the fault names (R230), the fault name of an instruction's own
check (R235), and the pc in `Faulted` (R233). -/

namespace Sys2Proof.Machine

variable {s t : State} {f : FaultCause}

/-- No fault has a code outside the table's (R230). -/
theorem FaultCause.code_bounds (f : FaultCause) : 1 ≤ f.code.toNat ∧ f.code.toNat ≤ 7 := by
  cases f <;> decide

/-- Settles O49. -/
theorem faultCodes : Obligations.FaultCodes := ⟨rfl, rfl, rfl, rfl, rfl, rfl, rfl, FaultCause.code_bounds⟩

/-- Settles O31: an instruction takes a running engine to `Faulted(f)` only by raising its own fault. -/
theorem instructionHasOneFaultName : Obligations.InstructionHasOneFaultName := fun _ _ _ _ he h hf =>
  ((exec_effect h).eq_raise he hf).1

/-- Where a step of a loaded machine ends in `Faulted(f)`, either the fetch has raised `f` and the pc has not advanced, or
the fetched word's instruction has raised its own fault after the advance (R235). -/
theorem step_fault_cases (ha : s.awaitingImage = false) (h : step s = .next t) (hf : t.engine = .faulted f) :
    (s.fetch = .error f ∧ t = s.raise f) ∨
      ∃ w, s.fetch = .ok w ∧ ownFault (decode w) = some f ∧ t = s.advance.raise f := by
  obtain ⟨he, ⟨hwait, -⟩ | ⟨-, g, hfetch, rfl⟩ | ⟨-, w, hfetch, heff⟩⟩ := step_next_cases h
  · cases ha.symm.trans hwait
  · cases hf
    exact .inl ⟨hfetch, rfl⟩
  · exact .inr ⟨w, hfetch, heff.eq_raise ((State.advance_engine _).trans he) hf⟩

/-- Settles O32: the two ways a step can fault are told apart by whether there is a word at the pc. -/
theorem pcAfterAFault : Obligations.PcAfterAFault := by
  intro s t f ha hn h hf
  rcases step_fault_cases ha h hf with ⟨hfetch, rfl⟩ | ⟨w, hfetch, -, rfl⟩
  · have hnone : s.memory.word 0 s.pc.toNat = none := (State.fetch_error.1 hfetch).1.resolve_left hn.ne'
    exact ⟨fun _ => State.raise_pc .., fun hsome => absurd hnone hsome⟩
  · have hword : s.memory.word 0 s.pc.toNat = some w := (State.fetch_ok.1 hfetch).2
    refine ⟨fun hnone => ?_, fun _ => by rw [State.raise_pc, State.advance_pc]⟩
    cases hnone.symm.trans hword

end Sys2Proof.Machine

/-! PROOFS. Reset and the load of the program image (spec/70_reset_and_hazards.md): the start after reset (R266), the wait
for the image (R261), the state of R260 after an accepted image and `Faulted(InvalidProgram)` after a refused one (R263),
and the words of an image file (R262). -/

namespace Sys2Proof.Machine

variable {s : State} {img : Image}

/-! ### A Segment Table of slot 0 alone -/

theorem Memory.single_lenOf_zero (g : Segment) : Memory.lenOf { slots := [(0, g)] } 0 = some g.len := rfl

theorem Memory.single_lenOf_other (g : Segment) {id : Nat} (h : 1 ≤ id) : Memory.lenOf { slots := [(0, g)] } id = none := by
  have hne : ¬ 0 = id := by omega
  simp [Memory.lenOf, Memory.seg, Table.find, hne]

/-- Slot 0 holds exactly the words of the sequence it is made of (R260). -/
theorem Memory.single_ofWords_word (ws : List Word) (k : Nat) :
    Memory.word { slots := [(0, Segment.ofWords ws)] } 0 k = ws[k]? := by
  have hseg : Memory.seg { slots := [(0, Segment.ofWords ws)] } 0 = some (Segment.ofWords ws) := rfl
  rw [Memory.word_of_seg hseg, Segment.ofWords_len, Segment.ofWords_read]
  by_cases hk : k < ws.length <;> simp [hk]

/-! ### Reset -/

/-- Settles O36: `State.reset` is the state after reset at the reference configuration. -/
theorem invariantHoldsAfterReset : Obligations.InvariantHoldsAfterReset :=
  ⟨fun _ hp => State.resetWith_inv hp, State.resetWith_inv (by decide)⟩

/-- Settles O54, field by field: segment 0 is the only slot. -/
theorem resetRestoresTheStart : Obligations.ResetRestoresTheStart := fun s =>
  ⟨s.hostReset_engine, s.hostReset_awaitingImage, s.hostReset_inReq, s.hostReset_output,
    fun _ hid => Memory.single_lenOf_other _ hid, ⟨_, Memory.single_lenOf_zero _⟩, s.hostReset_x, s.hostReset_pc,
    s.hostReset_params⟩

/-! ### The end of the load -/

/-- The state after reset with the load over, `g` in slot 0 and the engine in state `e`: what both ends of the load have in
common. -/
def State.booted (s : State) (g : Segment) (e : Engine) : State :=
  { s.hostReset with awaitingImage := false, memory := { slots := [(0, g)] }, engine := e }

section

variable (s : State) (g : Segment) (e : Engine)

@[simp] theorem State.booted_params : (s.booted g e).params = s.params := rfl
@[simp] theorem State.booted_x (r : Reg) : (s.booted g e).x r = 0 := s.hostReset_x r
@[simp] theorem State.booted_pc : (s.booted g e).pc = 0 := rfl
@[simp] theorem State.booted_engine : (s.booted g e).engine = e := rfl
@[simp] theorem State.booted_memory : (s.booted g e).memory = { slots := [(0, g)] } := rfl
@[simp] theorem State.booted_output : (s.booted g e).output = [] := rfl
@[simp] theorem State.booted_inReq : (s.booted g e).inReq = false := rfl
@[simp] theorem State.booted_awaitingImage : (s.booted g e).awaitingImage = false := rfl
@[simp] theorem State.booted_loads : (s.booted g e).loads = s.loads := rfl

end

theorem State.load_accepted_booted (h : imageAccepted s.params img = true) :
    s.load img = s.booted (Segment.ofWords img.words) .running := State.load_accepted h

theorem State.load_refused_booted (h : imageAccepted s.params img = false) :
    s.load img = s.booted (refusedSegment s.params s.loads img) (.faulted .invalidProgram) := State.load_refused h

/-- The load itself asks the host nothing. -/
@[simp] theorem State.load_loads (img : Image) : (s.load img).loads = s.loads := by
  cases h : imageAccepted s.params img with
  | true => rw [State.load_accepted_booted h, State.booted_loads]
  | false => rw [State.load_refused_booted h, State.booted_loads]

/-- An image is accepted exactly when it ends in `ok` and a slot can hold it (R263). -/
theorem imageAccepted_iff {p : Params} :
    imageAccepted p img = true ↔ img.marker = .ok ∧ img.words.length ≤ p.maxSegWords := by
  simp [imageAccepted]

theorem imageAccepted_eq_false {p : Params} (h : img.marker = .invalid ∨ p.maxSegWords < img.words.length) :
    imageAccepted p img = false := by
  rw [← Bool.not_eq_true, imageAccepted_iff]
  rintro ⟨hok, hlen⟩
  rcases h with h | h
  · cases hok.symm.trans h
  · exact absurd hlen h.not_ge

/-- STATUS where no request is pending: the engine's two fields, every other bit 0 (R27). -/
theorem State.status_of_idle (h : s.inReq = false) :
    s.status = (0 : BitVec 20) ++ s.engine.faultField ++ (0 : BitVec 6) ++ s.engine.stateField := by
  have hw : s.waiting = false := by simp [State.waiting, h]
  rw [State.status, hw]
  cases s.engine with
  | running => rfl
  | halted => rfl
  | faulted f => cases f <;> rfl

/-- Settles O50: the load is accepted, so segment 0 holds the image's words and the engine runs. -/
theorem loadGivesTheInitialState : Obligations.LoadGivesTheInitialState := by
  intro s img hok hlen
  rw [State.load_accepted_booted (imageAccepted_iff.2 ⟨hok, hlen⟩), State.status_of_idle (State.booted_inReq ..),
    State.booted_engine, State.booted_memory]
  exact ⟨State.booted_x s _ _, State.booted_pc .., rfl, rfl, Memory.single_lenOf_zero _, Memory.single_ofWords_word _,
    fun _ hid => Memory.single_lenOf_other _ hid, State.booted_output .., State.booted_inReq ..,
    State.booted_awaitingImage .., State.booted_params ..⟩

theorem refusedSegment_len (p : Params) (k : Nat) (img : Image) : (refusedSegment p k img).len = refusedLen p k img := by
  simp [refusedSegment]

/-- A refused image that a slot can hold still gives segment 0 its length (R263, log entry 7). -/
theorem refusedLen_of_fits {p : Params} (k : Nat) (h : img.words.length ≤ p.maxSegWords) :
    refusedLen p k img = img.words.length := if_pos h

/-- Settles O51: the load is refused, so the engine is `Faulted(InvalidProgram)` and segment 0 has `refusedLen` words. -/
theorem invalidImageFaults : Obligations.InvalidImageFaults := by
  intro s img hbad
  rw [State.load_refused_booted (imageAccepted_eq_false hbad), State.status_of_idle (State.booted_inReq ..),
    State.booted_engine, State.booted_memory, Memory.single_lenOf_zero, refusedSegment_len]
  exact ⟨rfl, rfl, step_faulted (State.booted_engine ..), State.booted_x s _ _, State.booted_pc ..,
    ⟨_, rfl, refusedLen_le .., refusedLen_of_fits _⟩, fun _ hid => Memory.single_lenOf_other _ hid⟩

/-! ### The wait for the image -/

theorem State.pollImage_of_none (h : Config.hostImage s.loads = none) :
    s.pollImage = { s with loads := s.loads + 1 } := by
  simp only [State.pollImage, h]

theorem State.pollImage_of_some (h : Config.hostImage s.loads = some img) :
    s.pollImage = { s with loads := s.loads + 1 }.load img := by
  simp only [State.pollImage, h]

/-- Settles O53: the step asks for the image, by cases on whether the host has completed one. -/
theorem nothingRunsBeforeTheImage : Obligations.NothingRunsBeforeTheImage := by
  intro s he ha
  refine ⟨s.pollImage, step_awaiting he ha, ?_⟩
  cases h : Config.hostImage s.loads with
  | none =>
    rw [State.pollImage_of_none h]
    exact ⟨rfl, rfl⟩
  | some img =>
    rw [State.pollImage_of_some h]
    exact ⟨State.load_loads img, rfl⟩

/-! ### The words of an image file, by the recursion of `imageWords`: four bytes at a time -/

/-- A byte below a value's bits adds itself to the value times 2^8. -/
theorem toNat_append_byte {n : Nat} (v : BitVec n) (b : Byte) : (v ++ b).toNat = v.toNat * 2 ^ 8 + b.toNat := by
  rw [BitVec.toNat_append, ← Nat.shiftLeft_add_eq_or_of_lt b.isLt, Nat.shiftLeft_eq]

/-- Four bytes as a word are big-endian (R262). -/
theorem wordOfBytes_toNat (b0 b1 b2 b3 : Byte) :
    (wordOfBytes b0 b1 b2 b3).toNat = b0.toNat * 2 ^ 24 + b1.toNat * 2 ^ 16 + b2.toNat * 2 ^ 8 + b3.toNat := by
  rw [wordOfBytes, toNat_append_byte, toNat_append_byte, toNat_append_byte]
  omega

/-- The marker is `ok` exactly when no byte is left over (R263). -/
theorem imageWords_marker (bytes : List Byte) : (imageWords bytes).2 = .ok ↔ bytes.length % 4 = 0 := by
  induction bytes using imageWords.induct with
  | case1 b0 b1 b2 b3 rest ih =>
    simp only [imageWords, ih, List.length_cons]
    omega
  | case2 | case3 | case4 | case5 => simp [imageWords]

/-- There are as many words as complete groups of four bytes (log entry 15). -/
theorem imageWords_length (bytes : List Byte) : (imageWords bytes).1.length = bytes.length / 4 := by
  induction bytes using imageWords.induct with
  | case1 b0 b1 b2 b3 rest ih =>
    simp only [imageWords, List.length_cons, ih]
    omega
  | case2 | case3 | case4 | case5 => simp [imageWords]

/-- Word `k` is made of the bytes `4k` to `4k + 3`: its last byte is there only where all four are. -/
theorem imageWords_getElem? {bytes : List Byte} {k : Nat} {b0 b1 b2 b3 : Byte} (h0 : bytes[4 * k]? = some b0)
    (h1 : bytes[4 * k + 1]? = some b1) (h2 : bytes[4 * k + 2]? = some b2) (h3 : bytes[4 * k + 3]? = some b3) :
    (imageWords bytes).1[k]? = some (wordOfBytes b0 b1 b2 b3) := by
  induction bytes using imageWords.induct generalizing k with
  | case1 c0 c1 c2 c3 rest ih =>
    cases k with
    | zero =>
      cases h0
      cases h1
      cases h2
      cases h3
      rfl
    | succ k => exact ih h0 h1 h2 h3
  | case2 | case3 | case4 | case5 => simp at h3

/-- Settles O52, from what `imageWords` gives: its marker, its number of words, and each word. -/
theorem imageWordsAreBigEndian : Obligations.ImageWordsAreBigEndian := fun bytes =>
  ⟨imageWords_marker bytes, imageWords_length bytes, fun _ b0 b1 b2 b3 h0 h1 h2 h3 =>
    ⟨_, imageWords_getElem? h0 h1 h2 h3, wordOfBytes_toNat b0 b1 b2 b3⟩⟩

end Sys2Proof.Machine
